-- ==== Sys2Proof/Word.lean ====
section
/-! DEFINITION. The one word of this hardware: the byte (00_scope.md R5). Registers, memory cells, operands,
immediates and FL are bytes, all unsigned; a sum of bytes wraps modulo 256, which is `BitVec` addition. -/

namespace Sys2Proof

/-- A byte: an unsigned integer in 0 to 255 (R5), bit 0 least significant (R6). -/
abbrev Byte := BitVec 8

end Sys2Proof
end

