-- ==== Sys2Proof/Config.lean ====
section
/-! DEFINITION. What one machine fixes and the spec leaves open: the parameters of 00_scope.md R4 whose status is
"open" or whose value is the spec's own choice "as configuration". The default opcode bytes stand in Decode.lean, beside
the opcode map they belong to. The spec leaves no instruction's result open, so there is no free value here. -/

namespace Sys2Proof

/-- `MEM_SIZE`: the number of memory cells (R4, R50). -/
abbrev Config.memSize : Nat := 256

/-- The five opcode bytes the source does not give (R4, R78, decision D2), as parameters. The three it gives (LDI, PRN,
HLT) are no parameters. What R78 asks of them is `OpcodeParams.Valid` (Decode.lean). -/
structure OpcodeParams where
  add : Byte
  cmp : Byte
  jmp : Byte
  jeq : Byte
  jne : Byte
  deriving DecidableEq, Repr

/-- The two reset values the spec leaves open (R42, R43): `RESET_GPR` (decision D3) and `RESET_FL` (decision D4). -/
structure ResetParams where
  gpr : Vector Byte 8
  fl  : Byte
  deriving DecidableEq, Repr

/-- DESIGN CHOICE (log entries 2 and 3): 0x00 in all eight registers and in FL, the defaults that 92_eei_decisions.md D3
and D4 name. Unsafe: "Do not assume" (91_not_in_source.md N2). -/
def Config.resetParams : ResetParams := ⟨Vector.replicate 8 0, 0⟩

end Sys2Proof
end

