-- ==== Sys2Proof/Syntax.lean ====
section
/-! DEFINITION. The instructions as syntax: one constructor of `Instr` per row of spec/opcode_table.json (R105: the set
is closed), and the eight mnemonics alone, which is what an opcode byte identifies (R83). -/

namespace Sys2Proof

/-- The identity an opcode byte selects (R83, R105). -/
inductive Mnemonic where
  | ldi | prn | add | cmp | jmp | jeq | jne | hlt
  deriving DecidableEq, Repr

/-- The closed dispatch set of R105, in the table's order. -/
def Mnemonic.all : List Mnemonic := [.ldi, .prn, .add, .cmp, .jmp, .jeq, .jne, .hlt]

/-- The "fixed operand arity" each instruction carries (R105, R72: formats Z, R, RR and RI). -/
def Mnemonic.arity : Mnemonic → Nat
  | .ldi => 2
  | .prn => 1
  | .add => 2
  | .cmp => 2
  | .jmp => 1
  | .jeq => 1
  | .jne => 1
  | .hlt => 0

/-- One instruction with its operands. `a` and `b` are the register indices presented to the register file, whose
contract takes any index and fails outside 0 to 7 (R24): so an index is a number here, and `Instr.WellFormed` says that it
names a register (log entry 14). -/
inductive Instr where
  /-- LDI Ra imm (R120). -/
  | ldi (a : Nat) (imm : Byte)
  /-- PRN Ra (R121). -/
  | prn (a : Nat)
  /-- ADD Ra Rb (R133). -/
  | add (a b : Nat)
  /-- CMP Ra Rb (R144). -/
  | cmp (a b : Nat)
  /-- JMP Ra (R150). -/
  | jmp (a : Nat)
  /-- JEQ Ra (R151). -/
  | jeq (a : Nat)
  /-- JNE Ra (R152). -/
  | jne (a : Nat)
  /-- HLT (R160). -/
  | hlt
  deriving DecidableEq, Repr

/-- Which of the eight an instruction is. -/
def Instr.mnemonic : Instr → Mnemonic
  | .ldi _ _ => .ldi
  | .prn _ => .prn
  | .add _ _ => .add
  | .cmp _ _ => .cmp
  | .jmp _ => .jmp
  | .jeq _ => .jeq
  | .jne _ => .jne
  | .hlt => .hlt

/-- An instruction's length in bytes, `n + 1` (R70, R73). -/
def Instr.length (i : Instr) : Nat := i.mnemonic.arity + 1

/-- The register indices an instruction holds, first operand first (R26, R74). -/
def Instr.indices : Instr → List Nat
  | .ldi a _ => [a]
  | .prn a => [a]
  | .add a b => [a, b]
  | .cmp a b => [a, b]
  | .jmp a => [a]
  | .jeq a => [a]
  | .jne a => [a]
  | .hlt => []

end Sys2Proof
end

