-- ==== Sys2Proof/WellFormed.lean ====
section
/-! DEFINITION. When an instruction is one that the encoding can hold: every register index names one of `R0` to `R7`
(10_state.md R21, R22; an index "must resolve to [0,8)", 30_encoding.md R75). An immediate is a byte by its type. -/

namespace Sys2Proof

/-- A register index names a register: 0 to 7; "There is no register 8" (R22). -/
abbrev RegIndexOk (a : Nat) : Prop := a < 8

/-- Every register operand of the instruction names a register. -/
abbrev Instr.WellFormed (i : Instr) : Prop := ∀ a ∈ i.indices, RegIndexOk a

end Sys2Proof
end

