-- ==== Sys2Proof/Decode.lean ====
section
/-! DEFINITION. The decoder (30_encoding.md R70 to R83; 40_engine_cycle.md R103 to R105), total on any bytes and
rejecting by name, and after it the encoder (R84), both over the opcode map of R78; and the host's view of a word of
spec/opcode_table.json. -/

namespace Sys2Proof

/-- `field(v, lo, w) = v[lo+w-1:lo]`, the source's bit-field helper (R6, R104). -/
def field (v : Byte) (lo w : Nat) : Nat := (v.toNat >>> lo) % 2 ^ w

/-- `operand_count(opcode)`, bits 7:6 of the opcode byte, 0 to 3 (R71, R83, R104). -/
def operandCount (opcode : Byte) : Nat := field opcode 6 2

/-- `advance_width(opcode) = operand_count(opcode) + 1` (R73, R83). -/
def advanceWidth (opcode : Byte) : Nat := operandCount opcode + 1

/-- The register a register operand byte selects: `o[2:0]`; bits 7:3 are ignored (R75; log entry 4). -/
def regOperand (o : Byte) : Nat := field o 0 3

/-- The immediate an operand byte holds: the whole byte (R77). -/
def immOperand (o : Byte) : Byte := o

/-- A register operand byte is canonical when its bits 7:3 are zero (R76). -/
def canonicalOperand (o : Byte) : Bool := field o 3 5 == 0

/-- The opcode map of R78 over the five open bytes. -/
def OpcodeParams.byteOf (m : OpcodeParams) : Mnemonic → Byte
  | .ldi => 0x82
  | .prn => 0x47
  | .add => m.add
  | .cmp => m.cmp
  | .jmp => m.jmp
  | .jeq => m.jeq
  | .jne => m.jne
  | .hlt => 0x01

/-- What the source fixes of the opcode bytes whatever their values (R4, R78): bits 7:6 of each are its instruction's
operand count, and the eight are pairwise distinct. -/
abbrev OpcodeParams.Valid (m : OpcodeParams) : Prop :=
  (∀ k ∈ Mnemonic.all, operandCount (m.byteOf k) = k.arity) ∧ (Mnemonic.all.map m.byteOf).Nodup

/-- PRESUMED (log entry 1): the five bytes of decision D2, which the spec takes from general knowledge. Unsafe for a
claim about a concrete image; a claim over every `OpcodeParams` that is `Valid` does not depend on them. -/
def Config.opcodes : OpcodeParams := ⟨0xA0, 0xA7, 0x54, 0x55, 0x56⟩

/-- The decoder's identity output: the mnemonic whose whole byte equals the opcode, or none, UNKNOWN (R71, R83). -/
def identify (m : OpcodeParams) (opcode : Byte) : Option Mnemonic :=
  Mnemonic.all.find? (fun k => m.byteOf k == opcode)

/-- The instruction made of an identity and its raw operand bytes (R72, R74 to R77). It answers none where there are not
as many bytes as the instruction has operands, which a `Valid` opcode map rules out (R105). -/
def assemble (k : Mnemonic) (operands : List Byte) : Option Instr :=
  match k with
  | .ldi => match operands with
    | [o₁, o₂] => some (.ldi (regOperand o₁) (immOperand o₂))
    | _ => none
  | .prn => match operands with
    | [o₁] => some (.prn (regOperand o₁))
    | _ => none
  | .add => match operands with
    | [o₁, o₂] => some (.add (regOperand o₁) (regOperand o₂))
    | _ => none
  | .cmp => match operands with
    | [o₁, o₂] => some (.cmp (regOperand o₁) (regOperand o₂))
    | _ => none
  | .jmp => match operands with
    | [o₁] => some (.jmp (regOperand o₁))
    | _ => none
  | .jeq => match operands with
    | [o₁] => some (.jeq (regOperand o₁))
    | _ => none
  | .jne => match operands with
    | [o₁] => some (.jne (regOperand o₁))
    | _ => none
  | .hlt => match operands with
    | [] => some .hlt
    | _ => none

/-- Why bytes are no instruction. -/
inductive DecodeError where
  /-- There is no opcode byte: the opcode fetch failed (R102). -/
  | noOpcode
  /-- The opcode byte is there, and fewer operand bytes than its bits 7:6 ask for (R103). -/
  | missingOperand (opcode : Byte)
  /-- The opcode byte is none of the eight (R80). -/
  | unknownOpcode (opcode : Byte)
  deriving DecidableEq, Repr

/-- Decode the instruction at the head of a list of bytes; answer it with the bytes after it. The operand bytes are asked
for before the opcode's identity is looked at, for every count 0 to 3 (R82, R103; log entry 6). -/
def decode (m : OpcodeParams) : List Byte → Except DecodeError (Instr × List Byte)
  | [] => .error .noOpcode
  | opcode :: rest =>
    if rest.length < operandCount opcode then .error (.missingOperand opcode)
    else
      match (identify m opcode).bind (assemble · (rest.take (operandCount opcode))) with
      | some i => .ok (i, rest.drop (operandCount opcode))
      | none => .error (.unknownOpcode opcode)

/-- The encoder (R84): the opcode byte of R78, then canonical register operand bytes, and LDI's immediate as it is. -/
def encode (m : OpcodeParams) : Instr → List Byte
  | .ldi a imm => [0x82, BitVec.ofNat 8 a, imm]
  | .prn a => [0x47, BitVec.ofNat 8 a]
  | .add a b => [m.add, BitVec.ofNat 8 a, BitVec.ofNat 8 b]
  | .cmp a b => [m.cmp, BitVec.ofNat 8 a, BitVec.ofNat 8 b]
  | .jmp a => [m.jmp, BitVec.ofNat 8 a]
  | .jeq a => [m.jeq, BitVec.ofNat 8 a]
  | .jne a => [m.jne, BitVec.ofNat 8 a]
  | .hlt => [0x01]

/-- The bytes, first at the lowest address, of an instruction whose `nbits` bits are `w` as spec/opcode_table.json numbers
them: its match, mask and fixed bits put the FIRST byte in the MOST significant place of the row (R72; log entry 12). Bytes
after those, up to the longest instruction (three), are zero. -/
def tableWordBytes (nbits w : Nat) : List Byte :=
  let n := (nbits + 7) / 8
  (List.range n).map (fun k => BitVec.ofNat 8 (w >>> (8 * (n - 1 - k)))) ++ List.replicate (3 - n) 0

/-- The instruction the decoder reads from a word of the opcode table. -/
def decodeTableWord (nbits w : Nat) : Option Instr :=
  match decode Config.opcodes (tableWordBytes nbits w) with
  | .ok (i, _) => some i
  | .error _ => none

end Sys2Proof
end

