-- ==== Sys2Proof/Machine/State.lean ====
section
/-! DEFINITION. The whole state of the machine (10_state.md R20, R36 to R39) as plain data, the reasons a step can stop,
and the state after reset (R42, R201). -/

namespace Sys2Proof.Machine

/-- The four fault kinds, a closed taxonomy (60_exceptions.md R170). A fault is an event of the hardware and leads to a
next state (R176): these are no reasons for the model to stop. -/
inductive FaultKind where
  /-- Memory access outside 0 to 255 (R171). -/
  | addressFault
  /-- Register index outside 0 to 7 (R172): in the register file's contract, raised by no step. -/
  | registerFault
  /-- Opcode byte not in the dispatch set (R173). -/
  | unknownInstruction
  /-- ALU operation not in the closed set (R174): in the ALU's contract, raised by no step. -/
  | unsupportedOperation
  deriving DecidableEq, Repr

/-- The run state (R36, R37). `faulted` carries what a fault report identifies: the kind and the program counter. -/
inductive RunState where
  | running
  | halted
  | faulted (kind : FaultKind) (pc : Nat)
  deriving DecidableEq, Repr

/-- Memory as the cells that differ from 0x00, addresses strictly rising; an address not listed reads 0x00 (R38: memory is
"zero-initialized"). `Memory.wf` (Ops.lean) says the form holds. -/
abbrev Memory := List Host.Cell

/-- The state between two steps (R8, R20), and the observer's history `out` (R39; log entry 9). -/
structure State where
  /-- `x[0]` to `x[7]` (R21). -/
  regs : Vector Byte 8
  /-- The program counter, an integer 0 to 256 that never wraps (R29, R30; log entry 5). -/
  pc   : Nat
  /-- FL: bit 0 equal, bit 1 greater, bit 2 less (R32). -/
  fl   : Byte
  /-- The run state (R36). -/
  run  : RunState
  /-- `M[0]` to `M[255]` (R38). -/
  mem  : Memory
  /-- The bytes handed to the sink, oldest first (R39). -/
  out  : List Byte
  deriving DecidableEq, Repr

/-- Why the machine has no step: the engine has stopped, and "takes no step, ever" (R100). Both are safe: the model stops
exactly where the spec gives no step. -/
inductive Fault where
  /-- Raised by `step` when `run = Halted` (R37, R160). Safe. -/
  | engineHalted
  /-- Raised by `step` when `run = Faulted(kind, pc)` (R37, R179). Safe. -/
  | engineFaulted (kind : FaultKind) (pc : Nat)
  deriving DecidableEq, Repr

/-- Why an instruction has no meaning here. -/
inductive Refusal where
  /-- Raised by an arm of `exec` whose instruction is not modelled yet; no arm does. Safe. -/
  | notModelled (mnemonic : String)
  deriving DecidableEq, Repr

/-- Construction, the one reset event (R200, R201; log entry 13), over the two reset values the spec leaves open. -/
def State.construct (p : ResetParams) : State :=
  { regs := p.gpr, pc := 0, fl := p.fl, run := .running, mem := [], out := [] }

/-- The machine right after reset, with the defaults of `Config.resetParams` (log entries 2 and 3). -/
def State.reset : State := State.construct Config.resetParams

end Sys2Proof.Machine
end

