-- ==== Sys2Proof/Machine/Ops.lean ====
section
/-! DEFINITION. The named operations the rules are written in (00_scope.md R7): memory reads and writes, the program
counter, the sink, fault entry (60_exceptions.md R176), and the fault report. There is no return from a fault (R179), so
there is no operation for one. -/

namespace Sys2Proof.Machine

/-- What a cell that was never written reads as: 0x00 (R38, R42). -/
abbrev Memory.unfilled : Byte := 0

/-- The canonical form: addresses strictly rising and inside memory, no cell equal to what an unlisted one reads as. -/
abbrev Memory.wf (m : Memory) : Prop :=
  m.Pairwise (fun c d => c.1 < d.1) ∧ ∀ c ∈ m, c.1 < Config.memSize ∧ c.2 ≠ Memory.unfilled

/-- The byte a memory holds at an address. -/
def Memory.lookup : Memory → Nat → Byte
  | [], _ => Memory.unfilled
  | (b, w) :: m, a => if a = b then w else Memory.lookup m a

/-- Put a cell in front of the cells above it, keeping the canonical form. -/
def Memory.push (a : Nat) (v : Byte) (m : Memory) : Memory :=
  if v = Memory.unfilled then m else (a, v) :: m

/-- The memory with one cell replaced. -/
def Memory.store : Memory → Nat → Byte → Memory
  | [], a, v => Memory.push a v []
  | (b, w) :: m, a, v =>
    if a < b then Memory.push a v ((b, w) :: m)
    else if a = b then Memory.push a v m
    else (b, w) :: Memory.store m a v

/-- `MemRead(a, 1)` (R7, R51): AddressFault outside 0 to 255; no wrap (R57). -/
def Memory.read (m : Memory) (a : Nat) : Except FaultKind Byte :=
  if a < Config.memSize then .ok (m.lookup a) else .error .addressFault

/-- `MemWrite(a, 1, v)` (R7, R51): AddressFault outside 0 to 255. The loader alone uses it (R52). -/
def Memory.write (m : Memory) (a : Nat) (v : Byte) : Except FaultKind Memory :=
  if a < Config.memSize then .ok (m.store a v) else .error .addressFault

/-- `pc <- t`. -/
def State.setPc (s : State) (t : Nat) : State := { s with pc := t }

/-- The advance: `pc <- pc + width`, an integer sum, not reduced modulo 256 (R106). -/
def State.advance (s : State) (width : Nat) : State := s.setPc (s.pc + width)

/-- `Emit(v)`: append `v` to the output sequence (R39); the sink accepts at once (R122; log entry 9). -/
def State.emit (s : State) (v : Byte) : State := { s with out := s.out ++ [v] }

/-- `run <- r`. -/
def State.setRun (s : State) (r : RunState) : State := { s with run := r }

/-- Fault entry, `raise K(pc)` (R176): `run <- Faulted(K, pc)` with the program counter at this moment; nothing else is
written, and control goes nowhere (log entry 7). -/
def State.raise (s : State) (k : FaultKind) : State := s.setRun (.faulted k s.pc)

/-- End a step whose effect is `effect`: its state when it completed; when it raised a fault, fault entry from the state
BEFORE the effect, so a faulting step is all or nothing (R107). -/
def State.complete (s : State) (effect : Except FaultKind State) : Host.Outcome State Fault Refusal :=
  match effect with
  | .ok t => .next t
  | .error k => .next (s.raise k)

/-- The numbers of the fault kinds, labels only (R175, decision D6; log entry 8). -/
def FaultKind.code : FaultKind → Nat
  | .addressFault => 1
  | .registerFault => 2
  | .unknownInstruction => 3
  | .unsupportedOperation => 4

/-- The fault-kind number of a run state: 0 is "no fault" (R175). -/
def RunState.code : RunState → Nat
  | .running => 0
  | .halted => 0
  | .faulted k _ => k.code

/-- The fault report the host receives: the pair (kind, pc) and nothing else (R188). -/
def State.report (s : State) : Option (FaultKind × Nat) :=
  match s.run with
  | .running => none
  | .halted => none
  | .faulted k p => some (k, p)

end Sys2Proof.Machine
end

