-- ==== Sys2Proof/Machine/Operands.lean ====
section
/-! DEFINITION. The operands at run time: the register file's contract (10_state.md R23, R24) and the branch operand with
the program-counter mux (44_control_flow.md R153, R154). How an operand BYTE becomes a register index or an immediate is in
Decode.lean (30_encoding.md R74 to R77). -/

namespace Sys2Proof.Machine

/-- `get(index)`: RegisterFault when the index is outside 0 to 7 (R24). A read has no side effect (R23). -/
def State.getReg (s : State) (i : Nat) : Except FaultKind Byte :=
  if h : i < 8 then .ok s.regs[i] else .error .registerFault

/-- `set(index, value)`: RegisterFault when the index is outside 0 to 7 (R24). No register is hardwired (R23). -/
def State.setReg (s : State) (i : Nat) (v : Byte) : Except FaultKind State :=
  if h : i < 8 then .ok { s with regs := s.regs.set i v h } else .error .registerFault

/-- `zext(v)`: the byte as an integer 0 to 255, a branch target (R7, R153). -/
def zext (v : Byte) : Nat := v.toNat

/-- The program-counter mux of the R format (R106, R154): the register's value when `taken`, else the advance by two. The
register is read only when the branch is taken (R26). -/
def State.branch (s : State) (taken : Bool) (a : Nat) : Except FaultKind State :=
  if taken then do
    let v ← s.getReg a
    pure (s.setPc (zext v))
  else
    pure (s.advance 2)

end Sys2Proof.Machine
end

