-- ==== Sys2Proof/Machine/Alu.lean ====
section
/-! DEFINITION. The ALU block (42_alu.md R130 to R132) and the one instruction that uses it, ADD (R133). -/

namespace Sys2Proof.Machine

/-- The ALU's operation input: ADD, or a name outside its closed set (R131). -/
inductive AluOp where
  | add
  | other (name : String)
  deriving DecidableEq, Repr

/-- `apply(operation, a, b)` (R130, R131): `(a + b) mod 256`, no carry, no flag; UnsupportedOperation for any other name. -/
def aluApply (op : AluOp) (va vb : Byte) : Except FaultKind Byte :=
  match op with
  | .add => .ok (va + vb)
  | .other _ => .error .unsupportedOperation

/-- ADD Ra Rb (R133): both reads come before the write; FL is untouched (R34). -/
def execAdd (a b : Nat) (s : State) : Host.Outcome State Fault Refusal :=
  s.complete do
    let va ← s.getReg a
    let vb ← s.getReg b
    let r ← aluApply .add va vb
    let t ← s.setReg a r
    pure (t.advance 3)

end Sys2Proof.Machine
end

