-- ==== Sys2Proof/Machine/Flags.lean ====
section
/-! DEFINITION. The comparator (43_compare_and_flags.md R140, R141), the flag-setter (R143) and the reading of FL
(10_state.md R32, R35). These are all the flag computations there are: no other block has a path to FL (R143). -/

namespace Sys2Proof.Machine

/-- The comparator: equality first, then unsigned greater, else less (R140, R141). -/
def compareBytes (va vb : Byte) : Byte :=
  if va = vb then 0x01 else if va.toNat > vb.toNat then 0x02 else 0x04

/-- The flag-setter: all eight bits of FL (R143; decision D16, log entry 11). Only CMP enables it. -/
def State.setFlags (s : State) (flags : Byte) : State := { s with fl := flags }

/-- E = `FL[0]`, read through the bit-field helper (R32, R104). It is the only bit an instruction reads (R35). -/
def State.equalFlag (s : State) : Bool := field s.fl 0 1 == 1

/-- G = `FL[1]` (R32): for an observer of the state; no instruction reads it (R35). -/
def State.greaterFlag (s : State) : Bool := field s.fl 1 1 == 1

/-- L = `FL[2]` (R32): for an observer of the state; no instruction reads it (R35). -/
def State.lessFlag (s : State) : Bool := field s.fl 2 1 == 1

end Sys2Proof.Machine
end

