-- ==== Sys2Proof/Machine/Compare.lean ====
section
/-! DEFINITION. CMP (43_compare_and_flags.md R144), over the comparator and the flag-setter of Flags.lean. -/

namespace Sys2Proof.Machine

/-- CMP Ra Rb (R144): `FL <- compare(x[a], x[b]) ; pc <- pc + 3`. -/
def execCmp (a b : Nat) (s : State) : Host.Outcome State Fault Refusal :=
  s.complete do
    let va ← s.getReg a
    let vb ← s.getReg b
    pure ((s.setFlags (compareBytes va vb)).advance 3)

end Sys2Proof.Machine
end

