-- ==== Sys2Proof/Machine/Control.lean ====
section
/-! DEFINITION. Control transfer: JMP, JEQ, JNE (44_control_flow.md R150 to R152), each a select signal for the
program-counter mux (R154), and HLT (45_halt.md R160). -/

namespace Sys2Proof.Machine

/-- JMP Ra (R150): `pc <- zext(x[a])`; the select is constant true. -/
def execJmp (a : Nat) (s : State) : Host.Outcome State Fault Refusal :=
  s.complete (s.branch true a)

/-- JEQ Ra (R151): the select is `FL[0]`. -/
def execJeq (a : Nat) (s : State) : Host.Outcome State Fault Refusal :=
  s.complete (s.branch s.equalFlag a)

/-- JNE Ra (R152): the select is `not FL[0]`; G and L play no part. -/
def execJne (a : Nat) (s : State) : Host.Outcome State Fault Refusal :=
  s.complete (s.branch (!s.equalFlag) a)

/-- HLT (R160): `run <- Halted ; pc <- pc + 1`. -/
def execHlt (s : State) : Host.Outcome State Fault Refusal :=
  s.complete (.ok ((s.setRun .halted).advance 1))

end Sys2Proof.Machine
end

