-- ==== Sys2Proof/Machine/LoadOutput.lean ====
section
/-! DEFINITION. Load immediate and output: LDI and PRN (41_load_immediate_and_output.md R120 to R122). -/

namespace Sys2Proof.Machine

/-- LDI Ra imm (R120): `x[a] <- imm ; pc <- pc + 3`. -/
def execLdi (a : Nat) (imm : Byte) (s : State) : Host.Outcome State Fault Refusal :=
  s.complete do
    let t ← s.setReg a imm
    pure (t.advance 3)

/-- PRN Ra (R121): `Emit(x[a]) ; pc <- pc + 2`. -/
def execPrn (a : Nat) (s : State) : Host.Outcome State Fault Refusal :=
  s.complete do
    let v ← s.getReg a
    pure ((s.emit v).advance 2)

end Sys2Proof.Machine
end

