-- ==== Sys2Proof/Machine/Cycle.lean ====
section
/-! DEFINITION. The engine's cycle while it runs (40_engine_cycle.md R101 to R110): fetch, operand reads, dispatch. The
advance or branch is the last action of each effect (R106). -/

namespace Sys2Proof.Machine

/-- Read `n` bytes at ascending addresses from `a`, stopping at the first fault (R103). -/
def Memory.readFrom (m : Memory) (a : Nat) : Nat → Except FaultKind (List Byte)
  | 0 => .ok []
  | n + 1 => do
    let b ← m.read a
    let bs ← Memory.readFrom m (a + 1) n
    pure (b :: bs)

/-- Phases 1 and 2: the opcode at `pc`, then its `opcode[7:6]` raw operand bytes (R102, R103). -/
def State.fetch (s : State) : Except FaultKind (List Byte) := do
  let opcode ← s.mem.read s.pc
  let operands ← s.mem.readFrom (s.pc + 1) (operandCount opcode)
  pure (opcode :: operands)

/-- The fault that bytes which are no instruction raise: a byte that could not be read is an AddressFault, an opcode
outside the eight an UnknownInstruction (R80, R171, R173). -/
def decodeFault : DecodeError → FaultKind
  | .noOpcode => .addressFault
  | .missingOperand _ => .addressFault
  | .unknownOpcode _ => .unknownInstruction

/-- One step of a running engine (R110): every fault of fetch and decode is raised before any effect (R107, R178). -/
def cycle (m : OpcodeParams) (s : State) : Host.Outcome State Fault Refusal :=
  match s.fetch with
  | .error k => .next (s.raise k)
  | .ok bytes =>
    match decode m bytes with
    | .error e => .next (s.raise (decodeFault e))
    | .ok (i, _) => exec i s

end Sys2Proof.Machine
end

