-- ==== Sys2Proof/Machine/Loader.lean ====
section
/-! DEFINITION. The loader (70_reset_and_hazards.md R205): writes to memory between construction and the first step. It is
the host's only way in (R206, R209; log entry 10). -/

namespace Sys2Proof.Machine

/-- One loader write, `MemWrite(a, 1, v)`; an address above 255 is an AddressFault raised to the loader, and the engine is
unaffected: there is no new state (R205). -/
def State.loadByte (s : State) (c : Host.Cell) : Except FaultKind State := do
  let m ← s.mem.write c.1 c.2
  pure { s with mem := m }

/-- A whole image, a "sequence of (address, byte)", written in order (R205); a write above 255 ends it
with an AddressFault and no state (log entry 17). -/
def State.load (s : State) : List Host.Cell → Except FaultKind State
  | [] => .ok s
  | c :: cs => do
    let t ← s.loadByte c
    State.load t cs

/-- An image given as consecutive bytes from an address. -/
def imageAt (base : Nat) : List Byte → List Host.Cell
  | [] => []
  | b :: bs => (base, b) :: imageAt (base + 1) bs

/-- Place bytes where the next step fetches. They stand at `pc`, or at 0 with `pc` moved there when they do not fit below
address 256; a stopped engine is set running; nothing else changes (log entry 12). -/
def State.placeFetch (s : State) (bytes : List Byte) : State :=
  let base := if s.pc + bytes.length ≤ Config.memSize then s.pc else 0
  match s.load (imageAt base bytes) with
  | .ok t => { t with pc := base, run := .running }
  | .error _ => s

end Sys2Proof.Machine
end

