-- ==== Sys2Proof/Machine/Step.lean ====
section
/-! DEFINITION. One step of the machine: the engine's cycle when it is running, and no step when it has stopped
(40_engine_cycle.md R100; 10_state.md R37). -/

namespace Sys2Proof.Machine

/-- A step under an opcode map (R100). A stopped engine has no step (log entry 7). -/
def stepWith (m : OpcodeParams) (s : State) : Host.Outcome State Fault Refusal :=
  match s.run with
  | .running => cycle m s
  | .halted => .fault .engineHalted
  | .faulted k p => .fault (.engineFaulted k p)

/-- A step under the default opcode map (log entry 1). -/
def step (s : State) : Host.Outcome State Fault Refusal := stepWith Config.opcodes s

/-- `s` with a word of the opcode table where the next step fetches. -/
def State.withFetchWord (s : State) (nbits w : Nat) : State := s.placeFetch (tableWordBytes nbits w)

end Sys2Proof.Machine
end

