-- ==== Sys2Proof/Safety.lean ====
section
/-! DEFINITION. The terms claims are stated in: what a step leads to, the invariant of the engine, a run and its end
(45_halt.md R163), and the byte patterns of the encoding (30_encoding.md R72) said without the decoder's own functions. -/

namespace Sys2Proof.Machine

/-- The state an outcome leads to, if it leads to one. -/
def nextState? (o : Host.Outcome State Fault Refusal) : Option State :=
  match o with
  | .next t => some t
  | .fault _ => none
  | .refused _ => none

/-- The fault report is one the hardware can give (R188): the recorded program counter is the engine's, UnknownInstruction
at 0 to 255, AddressFault at 253 to 256, and no other kind. -/
def State.ReportOk (s : State) : Prop :=
  match s.run with
  | .running => True
  | .halted => True
  | .faulted k p =>
    p = s.pc ∧ ((k = .unknownInstruction ∧ p ≤ 255) ∨ (k = .addressFault ∧ 253 ≤ p ∧ p ≤ 256))

/-- What holds of the engine at every moment of every run: the program counter is 0 to 256 (R29), memory is in its
canonical form inside 0 to 255 (R38), and the run state carries a possible report (R188). -/
structure State.Inv (s : State) : Prop where
  pc_le     : s.pc ≤ 256
  mem_wf    : s.mem.wf
  report_ok : s.ReportOk

/-- The states a run from `s` goes through (R163). -/
inductive Reaches (m : OpcodeParams) (s : State) : State → Prop where
  | here : Reaches m s s
  | step {t u : State} : Reaches m s t → stepWith m t = .next u → Reaches m s u

/-- `s` with its run's `k`-th state, when the run gets that far. -/
def stateAfter (m : OpcodeParams) (s : State) : Nat → Option State
  | 0 => some s
  | k + 1 => (nextState? (stepWith m s)).bind (stateAfter m · k)

/-- A run from `s` that never faults: what a program is asked for. It may loop for ever (R109). -/
def SafeRun (m : OpcodeParams) (s : State) : Prop := ∀ t, Reaches m s t → t.report = none

/-- The part of the state that decides what the engine does next: everything but `out`, which no instruction reads (R39). -/
def State.SameEngine (s t : State) : Prop :=
  s.regs = t.regs ∧ s.pc = t.pc ∧ s.fl = t.fl ∧ s.run = t.run ∧ s.mem = t.mem

/-- `opcode` is one of the eight opcode bytes of R78. -/
def IsOpcode (m : OpcodeParams) (opcode : Byte) : Prop :=
  opcode = 0x82 ∨ opcode = 0x47 ∨ opcode = 0x01 ∨ opcode = m.add ∨ opcode = m.cmp ∨ opcode = m.jmp ∨ opcode = m.jeq ∨
    opcode = m.jne

/-- Bits 7:6 of an opcode byte (R71), as a number. -/
def topBits (opcode : Byte) : Nat := (opcode.extractLsb' 6 2).toNat

/-- `o` is a register operand byte for register `a`: `a = o[2:0]` (R75). -/
def SelectsReg (o : Byte) (a : Nat) : Prop := (o.extractLsb' 0 3).toNat = a

/-- The byte patterns of R72: `bytes` is the instruction, whatever the ignored bits hold. -/
def IsEncodingOf (m : OpcodeParams) (bytes : List Byte) : Instr → Prop
  | .ldi a imm => ∃ o, bytes = [0x82, o, imm] ∧ SelectsReg o a
  | .prn a => ∃ o, bytes = [0x47, o] ∧ SelectsReg o a
  | .add a b => ∃ o p, bytes = [m.add, o, p] ∧ SelectsReg o a ∧ SelectsReg p b
  | .cmp a b => ∃ o p, bytes = [m.cmp, o, p] ∧ SelectsReg o a ∧ SelectsReg p b
  | .jmp a => ∃ o, bytes = [m.jmp, o] ∧ SelectsReg o a
  | .jeq a => ∃ o, bytes = [m.jeq, o] ∧ SelectsReg o a
  | .jne a => ∃ o, bytes = [m.jne, o] ∧ SelectsReg o a
  | .hlt => bytes = [0x01]

/-- The bytes stand in memory at ascending addresses from `a`, all below 256 (R53). -/
def BytesAt (mem : Memory) (a : Nat) : List Byte → Prop
  | [] => True
  | b :: bs => mem.read a = .ok b ∧ BytesAt mem (a + 1) bs

end Sys2Proof.Machine
end

