-- ==== Sys2Proof/Certificates/Slice0/Obligations.lean ====
section
/-! DEFINITION. What is claimed of the model, for the provers. Each statement names the rule of spec/ it formalises.
Statements over an `OpcodeParams` hold for every choice of the five opcode bytes that the spec leaves as parameters (R78,
decision D2); `step` is `stepWith Config.opcodes`. A clause that rests on a decision of the spec (Dn) says so. -/

open Sys2Proof Sys2Proof.Machine

-- Encoding

/-- R84, R70: the decoder undoes the encoder, with every operand at every value, whatever bytes follow. -/
def Obligations.DecodeEncodeRoundTrip : Prop :=
  ∀ m : OpcodeParams, m.Valid → ∀ i : Instr, i.WellFormed → ∀ rest : List Byte,
    decode m (encode m i ++ rest) = .ok (i, rest)

/-- R72, R75, R77: the decoder answers an instruction exactly on the byte patterns of the format table, bits 7:3 of a
register operand ignored (log entry 4), and leaves the bytes after it. -/
def Obligations.DecodeIffPattern : Prop :=
  ∀ m : OpcodeParams, m.Valid → ∀ (bytes : List Byte) (i : Instr) (rest : List Byte),
    decode m bytes = .ok (i, rest) ↔ ∃ own, bytes = own ++ rest ∧ IsEncodingOf m own i

/-- R80, R82 (decision D7 for the order): the decoder rejects by name, a missing operand byte before an unknown opcode. -/
def Obligations.DecodeRejectsByName : Prop :=
  ∀ m : OpcodeParams, m.Valid → decode m [] = .error .noOpcode ∧ ∀ (opcode : Byte) (rest : List Byte),
    (decode m (opcode :: rest) = .error (.missingOperand opcode) ↔ rest.length < topBits opcode) ∧
    (decode m (opcode :: rest) = .error (.unknownOpcode opcode) ↔
      topBits opcode ≤ rest.length ∧ ¬ IsOpcode m opcode)

/-- R72, R78: words written out from the table decode to the instructions they stand for. The bytes A0, A7, 54, 55, 56 are
the model's presumed defaults (log entry 1). -/
def Obligations.DecodeSpecWords : Prop :=
  decode Config.opcodes [0b10000010, 0b00000000, 0b00001000] = .ok (.ldi 0 8, []) ∧
  decode Config.opcodes [0b01000111, 0b11111010] = .ok (.prn 2, []) ∧
  decode Config.opcodes [0b10100000, 0b00000001, 0b00000110] = .ok (.add 1 6, []) ∧
  decode Config.opcodes [0b10100111, 0b00000101, 0b00000010] = .ok (.cmp 5 2, []) ∧
  decode Config.opcodes [0b01010100, 0b00000010] = .ok (.jmp 2, []) ∧
  decode Config.opcodes [0b01010101, 0b00000011] = .ok (.jeq 3, []) ∧
  decode Config.opcodes [0b01010110, 0b00000100] = .ok (.jne 4, []) ∧
  decode Config.opcodes [0b00000001] = .ok (.hlt, [])

/-- R83, but for its words on what an advance uses: the decoder as a function of one byte. -/
def Obligations.DecoderOfOneByte : Prop :=
  ∀ m : OpcodeParams, m.Valid → ∀ opcode : Byte,
    operandCount opcode = topBits opcode ∧ advanceWidth opcode = topBits opcode + 1 ∧
    1 ≤ advanceWidth opcode ∧ advanceWidth opcode ≤ 4 ∧
    (advanceWidth opcode = 4 → identify m opcode = none) ∧
    (∀ k, identify m opcode = some k ↔ m.byteOf k = opcode) ∧
    (∀ k, identify m opcode = some k → operandCount opcode = k.arity) ∧
    (identify m opcode = none ↔ ¬ IsOpcode m opcode)

/-- R80: "248 of the 256 byte values" are unknown, whatever the five parameter bytes are. -/
def Obligations.UnknownOpcodesAre248 : Prop :=
  ∀ m : OpcodeParams, m.Valid →
    ((List.finRange 256).filter (fun v => (identify m (BitVec.ofFin v)).isNone)).length = 248

/-- R4, R78: the model's default opcode bytes (presumed, log entry 1) are a legal choice, and `step` uses them. -/
def Obligations.DefaultOpcodesLegal : Prop :=
  Config.opcodes.Valid ∧ ∀ s, step s = stepWith Config.opcodes s

-- The blocks

/-- R140, R141: the comparator, equality first, unsigned. -/
def Obligations.ComparatorDecision : Prop :=
  ∀ va vb : Byte,
    (va = vb → compareBytes va vb = 0b001) ∧
    (va ≠ vb → va.toNat > vb.toNat → compareBytes va vb = 0b010) ∧
    (va ≠ vb → ¬ va.toNat > vb.toNat → compareBytes va vb = 0b100) ∧
    compareBytes 255 0 = 0b010 ∧ compareBytes 128 127 = 0b010

/-- R142: exactly one of the three results, and swapping the operands swaps greater and less. -/
def Obligations.ComparatorInverse : Prop :=
  ∀ va vb : Byte,
    (compareBytes va vb = 0x01 ∨ compareBytes va vb = 0x02 ∨ compareBytes va vb = 0x04) ∧
    (compareBytes va vb = 0x01 ↔ va = vb) ∧ (compareBytes va vb = 0x02 ↔ compareBytes vb va = 0x04) ∧ compareBytes va va = 0x01

/-- R130: ADD on the ALU is addition modulo 256 of the two bytes, and the instruction that uses it does not touch FL. -/
def Obligations.AluAddsModulo256 : Prop :=
  (∀ va vb : Byte, ∃ r, aluApply .add va vb = .ok r ∧ r.toNat = (va.toNat + vb.toNat) % 256) ∧
  (∀ (a b : Nat) (s t : State), exec (.add a b) s = .next t → t.fl = s.fl)

/-- R131, R132: the ALU's closed set, and the laws of its one operation. -/
def Obligations.AluLaws : Prop :=
  (∀ name va vb, aluApply (.other name) va vb = .error .unsupportedOperation) ∧
  (∀ va vb, aluApply .add va vb = aluApply .add vb va) ∧
  (∀ va, aluApply .add va 0 = .ok va) ∧
  (∀ va : Byte, va ≠ 0 → aluApply .add va (BitVec.ofNat 8 (256 - va.toNat)) = .ok 0) ∧
  (∀ va : Byte, aluApply .add va va = .ok (va <<< 1))

/-- R51: the memory block's contract; a write keeps the canonical form and mutates one cell. -/
def Obligations.MemoryContract : Prop :=
  ∀ (mem : Memory) (a : Nat) (v : Byte), mem.wf →
    (255 < a → mem.read a = .error .addressFault ∧ mem.write a v = .error .addressFault) ∧
    (a ≤ 255 → (∃ w, mem.read a = .ok w) ∧
      ∃ mem', mem.write a v = .ok mem' ∧ mem'.wf ∧ mem'.read a = .ok v ∧ ∀ b, b ≠ a → mem'.read b = mem.read b)

/-- R23, R24: the register file's contract. -/
def Obligations.RegisterFileContract : Prop :=
  ∀ (s : State) (i : Nat) (v : Byte),
    (7 < i → s.getReg i = .error .registerFault ∧ s.setReg i v = .error .registerFault) ∧
    (i ≤ 7 → (∃ w, s.getReg i = .ok w) ∧
      ∃ t, s.setReg i v = .ok t ∧ t.getReg i = .ok v ∧ (∀ j, j ≠ i → t.getReg j = s.getReg j) ∧
        t.pc = s.pc ∧ t.fl = s.fl ∧ t.run = s.run ∧ t.mem = s.mem ∧ t.out = s.out)

-- What each instruction does (its effect, at dispatch)

/-- R120: `x[a] <- imm ; pc <- pc + 3`, and nothing else. -/
def Obligations.LdiWritesImmediate : Prop :=
  ∀ (s : State) (a : Nat) (imm : Byte) (h : a < 8),
    exec (.ldi a imm) s = .next { s with regs := s.regs.set a imm h, pc := s.pc + 3 }

/-- R121: `Emit(x[a]) ; pc <- pc + 2`, and nothing else. -/
def Obligations.PrnEmitsRegister : Prop :=
  ∀ (s : State) (a : Nat) (_ : a < 8),
    exec (.prn a) s = .next { s with out := s.out ++ [s.regs[a]], pc := s.pc + 2 }

/-- R133: `x[a] <- (x[a] + x[b]) mod 256 ; pc <- pc + 3`, both sources read first, and nothing else; FL is unchanged. -/
def Obligations.AddWritesSum : Prop :=
  ∀ (s : State) (a b : Nat) (ha : a < 8) (_ : b < 8),
    exec (.add a b) s = .next { s with
      regs := s.regs.set a (BitVec.ofNat 8 ((s.regs[a].toNat + s.regs[b].toNat) % 256)) ha, pc := s.pc + 3 }

/-- R144: FL becomes 1, 2 or 4 by the unsigned comparison; `pc <- pc + 3`, and nothing else. -/
def Obligations.CmpSetsFlags : Prop :=
  ∀ (s : State) (a b : Nat) (_ : a < 8) (_ : b < 8),
    exec (.cmp a b) s = .next { s with
      fl := if s.regs[a] = s.regs[b] then 0x01 else if s.regs[b].toNat < s.regs[a].toNat then 0x02 else 0x04,
      pc := s.pc + 3 }

/-- R150: `pc <- zext(x[a])` with no advance added, and nothing else. -/
def Obligations.JmpSetsPc : Prop :=
  ∀ (s : State) (a : Nat) (_ : a < 8), exec (.jmp a) s = .next { s with pc := s.regs[a].toNat }

/-- R151, R152: JEQ and JNE from any one state: exactly one of them is taken, by bit 0 of FL alone; the other advances by
two; nothing else changes. -/
def Obligations.JeqJneSelectByEqualBit : Prop :=
  ∀ (s : State) (a : Nat) (_ : a < 8),
    exec (.jeq a) s = .next { s with pc := if s.fl.getLsbD 0 then s.regs[a].toNat else s.pc + 2 } ∧
    exec (.jne a) s = .next { s with pc := if s.fl.getLsbD 0 then s.pc + 2 else s.regs[a].toNat }

/-- R160: `run <- Halted ; pc <- pc + 1`, and nothing else. -/
def Obligations.HltHalts : Prop :=
  ∀ s : State, exec .hlt s = .next { s with run := .halted, pc := s.pc + 1 }

/-- The model's choice (log entry 14), no rule of the spec: an instruction as syntax may hold an index outside 0 to 7, and
one that it reads or writes then raises RegisterFault with no other effect, by the register file's contract and fault entry
(decision D5, log entry 7 for the form). No bytes encode such an instruction, and the hardware's raise none (R25, R172). An
untaken JEQ or JNE reads no register and so raises none. -/
def Obligations.BadRegisterIndexFaults : Prop :=
  ∀ (s : State) (bad ok : Nat) (imm : Byte), 8 ≤ bad → ok < 8 →
    exec (.ldi bad imm) s = .next { s with run := .faulted .registerFault s.pc } ∧
    exec (.prn bad) s = .next { s with run := .faulted .registerFault s.pc } ∧
    exec (.add bad ok) s = .next { s with run := .faulted .registerFault s.pc } ∧
    exec (.add ok bad) s = .next { s with run := .faulted .registerFault s.pc } ∧
    exec (.add bad bad) s = .next { s with run := .faulted .registerFault s.pc } ∧
    exec (.cmp bad ok) s = .next { s with run := .faulted .registerFault s.pc } ∧
    exec (.cmp ok bad) s = .next { s with run := .faulted .registerFault s.pc } ∧
    exec (.cmp bad bad) s = .next { s with run := .faulted .registerFault s.pc } ∧
    exec (.jmp bad) s = .next { s with run := .faulted .registerFault s.pc } ∧
    exec (.jeq bad) s = .next (if s.fl.getLsbD 0 then { s with run := .faulted .registerFault s.pc }
      else { s with pc := s.pc + 2 }) ∧
    exec (.jne bad) s = .next (if s.fl.getLsbD 0 then { s with pc := s.pc + 2 }
      else { s with run := .faulted .registerFault s.pc })

/-- R111, R182: once dispatched, a well-formed instruction completes in every state and raises no fault. -/
def Obligations.WellFormedCompletes : Prop :=
  ∀ (i : Instr) (s : State), i.WellFormed →
    ∃ t, exec i s = .next t ∧ (i ≠ .hlt → t.run = s.run) ∧ (i = .hlt → t.run = .halted)

-- Two instructions in a row

/-- R120, R210: "executing LDI reg immediate then reading reg yields immediate". -/
def Obligations.LdiThenPrnEmitsImmediate : Prop :=
  ∀ (s : State) (a : Nat) (imm : Byte), a < 8 →
    ∃ t u, exec (.ldi a imm) s = .next t ∧ exec (.prn a) t = .next u ∧ u.out = s.out ++ [imm] ∧ u.pc = s.pc + 5

/-- R144, R151, R152, R210: a JEQ (JNE) right after a CMP jumps exactly when the two registers are equal (unequal). -/
def Obligations.CmpThenBranchDecides : Prop :=
  ∀ (s : State) (a b c : Nat) (_ : a < 8) (_ : b < 8) (_ : c < 8),
    ∃ t u v, exec (.cmp a b) s = .next t ∧ exec (.jeq c) t = .next u ∧ exec (.jne c) t = .next v ∧
      u.pc = (if s.regs[a] = s.regs[b] then s.regs[c].toNat else s.pc + 5) ∧
      v.pc = (if s.regs[a] = s.regs[b] then s.pc + 5 else s.regs[c].toNat)

-- Frames

/-- R26 (writes), R34, R52: a register other than the destination of LDI or ADD is unchanged by every instruction. -/
def Obligations.FrameRegisters : Prop :=
  ∀ (i : Instr) (s t : State), exec i s = .next t → ∀ (r : Nat) (_ : r < 8),
    (∀ imm, i ≠ .ldi r imm) → (∀ b, i ≠ .add r b) → t.regs[r] = s.regs[r]

/-- R34: no instruction other than CMP writes FL, and a step that faults does not. -/
def Obligations.FrameFlags : Prop :=
  (∀ (i : Instr) (s t : State), exec i s = .next t → (∀ a b, i ≠ .cmp a b) → t.fl = s.fl) ∧
  (∀ (m : OpcodeParams) (s t : State) (k : FaultKind) (p : Nat),
    stepWith m s = .next t → t.run = .faulted k p → t.fl = s.fl)

/-- R52, R60, R63: no instruction and no step writes memory: every address reads after as it read before. -/
def Obligations.FrameMemory : Prop :=
  (∀ (i : Instr) (s t : State), exec i s = .next t → ∀ a, t.mem.read a = s.mem.read a) ∧
  (∀ (m : OpcodeParams) (s t : State), stepWith m s = .next t → ∀ a, t.mem.read a = s.mem.read a)

/-- R39, R122, R37: the output sequence grows by PRN alone and by its register; the run state changes by HLT alone, or by
the fault that a bad register index raises. -/
def Obligations.FrameOutputAndRun : Prop :=
  ∀ (i : Instr) (s t : State), exec i s = .next t →
    ((∀ a, i ≠ .prn a) → t.out = s.out) ∧
    (∀ (a : Nat) (_ : a < 8), i = .prn a → t.out = s.out ++ [s.regs[a]]) ∧
    (i ≠ .hlt → i.WellFormed → t.run = s.run)

-- A step of the machine

/-- R101 to R105: when the bytes at the program counter decode to an instruction, the step is that instruction's effect.
There is nothing around it: the advance is part of the effect (R106). -/
def Obligations.StepRunsDecodedInstruction : Prop :=
  (∀ (m : OpcodeParams) (s : State) (bytes : List Byte) (i : Instr),
    s.run = .running → BytesAt s.mem s.pc bytes → decode m bytes = .ok (i, []) → stepWith m s = exec i s) ∧
  (∀ (s : State) (bytes : List Byte) (i : Instr),
    s.run = .running → BytesAt s.mem s.pc bytes → decode Config.opcodes bytes = .ok (i, []) → step s = exec i s)

/-- R120 at a step: from the bytes in memory, every operand byte, and the fault when they do not fit (decision D5 for its
form). -/
def Obligations.StepOfLdi : Prop :=
  ∀ (m : OpcodeParams) (s : State), m.Valid → s.run = .running → s.mem.read s.pc = .ok 0x82 →
    (∀ (o imm : Byte) (a : Nat) (h : a < 8), s.mem.read (s.pc + 1) = .ok o → s.mem.read (s.pc + 2) = .ok imm →
      SelectsReg o a → stepWith m s = .next { s with regs := s.regs.set a imm h, pc := s.pc + 3 }) ∧
    (254 ≤ s.pc → stepWith m s = .next { s with run := .faulted .addressFault s.pc })

/-- R121 at a step. -/
def Obligations.StepOfPrn : Prop :=
  ∀ (m : OpcodeParams) (s : State), m.Valid → s.run = .running → s.mem.read s.pc = .ok 0x47 →
    (∀ (o : Byte) (a : Nat) (_ : a < 8), s.mem.read (s.pc + 1) = .ok o → SelectsReg o a →
      stepWith m s = .next { s with out := s.out ++ [s.regs[a]], pc := s.pc + 2 }) ∧
    (s.pc = 255 → stepWith m s = .next { s with run := .faulted .addressFault 255 })

/-- R133 at a step. -/
def Obligations.StepOfAdd : Prop :=
  ∀ (m : OpcodeParams) (s : State), m.Valid → s.run = .running → s.mem.read s.pc = .ok m.add →
    (∀ (o p : Byte) (a b : Nat) (ha : a < 8) (_ : b < 8), s.mem.read (s.pc + 1) = .ok o →
      s.mem.read (s.pc + 2) = .ok p → SelectsReg o a → SelectsReg p b →
      stepWith m s = .next { s with
        regs := s.regs.set a (BitVec.ofNat 8 ((s.regs[a].toNat + s.regs[b].toNat) % 256)) ha, pc := s.pc + 3 }) ∧
    (254 ≤ s.pc → stepWith m s = .next { s with run := .faulted .addressFault s.pc })

/-- R144 at a step. -/
def Obligations.StepOfCmp : Prop :=
  ∀ (m : OpcodeParams) (s : State), m.Valid → s.run = .running → s.mem.read s.pc = .ok m.cmp →
    (∀ (o p : Byte) (a b : Nat) (_ : a < 8) (_ : b < 8), s.mem.read (s.pc + 1) = .ok o →
      s.mem.read (s.pc + 2) = .ok p → SelectsReg o a → SelectsReg p b →
      stepWith m s = .next { s with
        fl := if s.regs[a] = s.regs[b] then 0x01 else if s.regs[b].toNat < s.regs[a].toNat then 0x02 else 0x04,
        pc := s.pc + 3 }) ∧
    (254 ≤ s.pc → stepWith m s = .next { s with run := .faulted .addressFault s.pc })

/-- R150 at a step. -/
def Obligations.StepOfJmp : Prop :=
  ∀ (m : OpcodeParams) (s : State), m.Valid → s.run = .running → s.mem.read s.pc = .ok m.jmp →
    (∀ (o : Byte) (a : Nat) (_ : a < 8), s.mem.read (s.pc + 1) = .ok o → SelectsReg o a →
      stepWith m s = .next { s with pc := s.regs[a].toNat }) ∧
    (s.pc = 255 → stepWith m s = .next { s with run := .faulted .addressFault 255 })

/-- R151 and R152 at a step. -/
def Obligations.StepOfJeqJne : Prop :=
  ∀ (m : OpcodeParams) (s : State), m.Valid → s.run = .running →
    (∀ (o : Byte) (a : Nat) (_ : a < 8), s.mem.read (s.pc + 1) = .ok o → SelectsReg o a →
      (s.mem.read s.pc = .ok m.jeq →
        stepWith m s = .next { s with pc := if s.fl.getLsbD 0 then s.regs[a].toNat else s.pc + 2 }) ∧
      (s.mem.read s.pc = .ok m.jne →
        stepWith m s = .next { s with pc := if s.fl.getLsbD 0 then s.pc + 2 else s.regs[a].toNat })) ∧
    (s.pc = 255 → s.mem.read s.pc = .ok m.jeq ∨ s.mem.read s.pc = .ok m.jne →
      stepWith m s = .next { s with run := .faulted .addressFault 255 })

/-- R160, R161 (decision D8 for the HLT at 255): HLT halts at any address 0 to 255. That the step after it, which the spec
does not have, answers the fault `engineHalted` is the model's choice (log entry 7). -/
def Obligations.StepOfHlt : Prop :=
  ∀ (m : OpcodeParams) (s : State), m.Valid → s.run = .running → s.mem.read s.pc = .ok 0x01 →
    stepWith m s = .next { s with run := .halted, pc := s.pc + 1 } ∧
    stepWith m { s with run := .halted, pc := s.pc + 1 } = .fault .engineHalted

/-- R100, first clause: the engine "takes a step exactly when run = Running". That a step of a stopped engine answers the
faults `engineHalted` and `engineFaulted` is the model's choice for "no step" (log entry 7). -/
def Obligations.StepExactlyWhenRunning : Prop :=
  ∀ (m : OpcodeParams) (s : State),
    ((∃ t, stepWith m s = .next t) ↔ s.run = .running) ∧
    (s.run = .halted → stepWith m s = .fault .engineHalted) ∧
    (∀ k p, s.run = .faulted k p → stepWith m s = .fault (.engineFaulted k p))

/-- R37: the transitions of the run state, complete: to Halted by HLT alone, to Faulted with the program counter of the
raise, otherwise the engine keeps running, by an instruction other than HLT. -/
def Obligations.RunStateTransitions : Prop :=
  ∀ (m : OpcodeParams) (s t : State), m.Valid → stepWith m s = .next t →
    s.run = .running ∧
    (t.run = .halted ↔ s.mem.read s.pc = .ok 0x01) ∧
    (∀ k p, t.run = .faulted k p → p = s.pc) ∧
    (t.run = .running ↔ ∃ (bytes : List Byte) (i : Instr),
      BytesAt s.mem s.pc bytes ∧ IsEncodingOf m bytes i ∧ i ≠ .hlt ∧ exec i s = .next t)

/-- R170, R171, R173, R178 (decisions D7 and D8 for the order and the moment): which fault a step raises, from the bytes in
memory alone: AddressFault on the fetch or on one of the n operand bytes of ANY opcode, else UnknownInstruction. -/
def Obligations.FaultClassification : Prop :=
  ∀ (m : OpcodeParams) (s t : State) (k : FaultKind) (p : Nat), m.Valid → stepWith m s = .next t →
    (t.run = .faulted k p ↔ p = s.pc ∧
      ((k = .addressFault ∧ (255 < s.pc ∨ ∃ opcode, s.mem.read s.pc = .ok opcode ∧ 255 < s.pc + topBits opcode)) ∨
       (k = .unknownInstruction ∧ ∃ opcode, s.mem.read s.pc = .ok opcode ∧ s.pc + topBits opcode ≤ 255 ∧
          ¬ IsOpcode m opcode)))

/-- R107, R176, R177, R188 (decisions D5 and D15): a faulting step changes nothing but the run state, and the report is the
pair (kind, pc). -/
def Obligations.FaultChangesOnlyRun : Prop :=
  ∀ (m : OpcodeParams) (s t : State) (k : FaultKind) (p : Nat), stepWith m s = .next t → t.run = .faulted k p →
    t = { s with run := .faulted k s.pc } ∧ t.report = some (k, s.pc)

/-- R25, R131, R172, R174: no step raises RegisterFault or UnsupportedOperation. -/
def Obligations.TwoFaultsNeverRaised : Prop :=
  ∀ (m : OpcodeParams) (s t : State) (p : Nat), stepWith m s = .next t →
    t.run ≠ .faulted .registerFault p ∧ t.run ≠ .faulted .unsupportedOperation p

/-- R31: how each instruction changes the program counter, complete, from the opcode byte at the old one; a faulting step
leaves it. -/
def Obligations.PcUpdateComplete : Prop :=
  ∀ (m : OpcodeParams) (s t : State) (opcode : Byte), m.Valid → stepWith m s = .next t →
    s.mem.read s.pc = .ok opcode →
    ((∃ k p, t.run = .faulted k p) → t.pc = s.pc) ∧
    ((∀ k p, t.run ≠ .faulted k p) →
      (opcode = 0x82 ∨ opcode = m.add ∨ opcode = m.cmp → t.pc = s.pc + 3) ∧
      (opcode = 0x47 → t.pc = s.pc + 2) ∧
      (opcode = 0x01 → t.pc = s.pc + 1) ∧
      (∀ (o : Byte) (a : Nat) (_ : a < 8), s.mem.read (s.pc + 1) = .ok o → SelectsReg o a →
        (opcode = m.jmp → t.pc = s.regs[a].toNat) ∧
        (opcode = m.jeq → t.pc = if s.fl.getLsbD 0 then s.regs[a].toNat else s.pc + 2) ∧
        (opcode = m.jne → t.pc = if s.fl.getLsbD 0 then s.pc + 2 else s.regs[a].toNat)))

/-- R39, R122 (decision D19): a step appends to the output only by PRN, and then exactly the register's byte. -/
def Obligations.OutputGrowsByPrnAlone : Prop :=
  ∀ (m : OpcodeParams) (s t : State), m.Valid → stepWith m s = .next t →
    t.out = s.out ∨ ∃ (o : Byte) (a : Nat) (_ : a < 8), s.mem.read s.pc = .ok 0x47 ∧
      s.mem.read (s.pc + 1) = .ok o ∧ SelectsReg o a ∧ t.out = s.out ++ [s.regs[a]]

/-- R33 (decision D16 for bits 7:3): a step leaves FL as it is or writes exactly one of E, G, L and zeros elsewhere, and it
writes only for a CMP. -/
def Obligations.FlagsOneHotAfterCompare : Prop :=
  ∀ (m : OpcodeParams) (s t : State), m.Valid → stepWith m s = .next t →
    t.fl = s.fl ∨ (s.mem.read s.pc = .ok m.cmp ∧
      ((t.fl = 0x01 ∧ t.equalFlag ∧ ¬ t.greaterFlag ∧ ¬ t.lessFlag) ∨
       (t.fl = 0x02 ∧ ¬ t.equalFlag ∧ t.greaterFlag ∧ ¬ t.lessFlag) ∨
       (t.fl = 0x04 ∧ ¬ t.equalFlag ∧ ¬ t.greaterFlag ∧ t.lessFlag)))

-- Invariants

/-- R29, R30, R38, R188 (decisions D1 and D8): a step keeps the program counter in 0 to 256, memory in its canonical form
and the fault report possible. -/
def Obligations.StepKeepsInvariant : Prop :=
  (∀ (m : OpcodeParams) (s t : State), s.Inv → stepWith m s = .next t → t.Inv) ∧
  (∀ s t : State, s.Inv → step s = .next t → t.Inv)

/-- R201, R42: the invariant holds after reset, whatever the open reset values are. -/
def Obligations.ResetMeetsInvariant : Prop :=
  State.reset.Inv ∧ ∀ p : ResetParams, (State.construct p).Inv

/-- R203, R205: the invariant holds in every state that a run from any loaded image goes through. -/
def Obligations.LoadedRunsMeetInvariant : Prop :=
  ∀ (m : OpcodeParams) (p : ResetParams) (image : List Host.Cell) (s t : State),
    (State.construct p).load image = .ok s → Reaches m s t → t.Inv

-- What cannot influence a step

/-- R35: bits 7:1 of FL influence nothing but themselves. -/
def Obligations.OnlyEqualBitInfluences : Prop :=
  ∀ (m : OpcodeParams) (s t : State) (f : Byte), f.getLsbD 0 = s.fl.getLsbD 0 → stepWith m s = .next t →
    ∃ t', stepWith m { s with fl := f } = .next t' ∧ t'.regs = t.regs ∧ t'.pc = t.pc ∧ t'.run = t.run ∧
      t'.mem = t.mem ∧ t'.out = t.out ∧ (t'.fl = t.fl ∨ (t.fl = s.fl ∧ t'.fl = f))

/-- R39, R207: "no instruction reads" the output: two engines that differ in it step alike and emit the same bytes. -/
def Obligations.OutputInfluencesNothing : Prop :=
  ∀ (m : OpcodeParams) (s s' t : State), s.SameEngine s' → stepWith m s = .next t →
    ∃ (t' : State) (emitted : List Byte), stepWith m s' = .next t' ∧ t.SameEngine t' ∧
      t.out = s.out ++ emitted ∧ t'.out = s'.out ++ emitted

/-- R52, R102, R103: a step reads memory at `pc` and at its `n` operand bytes only: any other memory that reads the same
there gives the same step. -/
def Obligations.StepReadsOnlyItsOwnBytes : Prop :=
  ∀ (m : OpcodeParams) (s t : State) (mem' : Memory), stepWith m s = .next t →
    mem'.read s.pc = s.mem.read s.pc →
    (∀ opcode, s.mem.read s.pc = .ok opcode → ∀ k, 1 ≤ k → k ≤ topBits opcode →
      mem'.read (s.pc + k) = s.mem.read (s.pc + k)) →
    stepWith m { s with mem := mem' } = .next { t with mem := mem' }

/-- R26: a register the instruction does not read influences nothing but itself (LDI reads none; ADD and CMP read a and b;
PRN and JMP read a; JEQ and JNE read a only when taken; HLT none). -/
def Obligations.UnreadRegisterInfluencesNothing : Prop :=
  ∀ (i : Instr) (s t : State) (r : Nat) (v : Byte) (hr : r < 8), i.WellFormed → exec i s = .next t →
    i ≠ .prn r → (∀ b, i ≠ .add r b) → (∀ a, i ≠ .add a r) → (∀ b, i ≠ .cmp r b) → (∀ a, i ≠ .cmp a r) →
    i ≠ .jmp r → (s.fl.getLsbD 0 → i ≠ .jeq r) → (¬ s.fl.getLsbD 0 → i ≠ .jne r) →
    ∃ t', exec i { s with regs := s.regs.set r v hr } = .next t' ∧ t'.pc = t.pc ∧ t'.fl = t.fl ∧ t'.run = t.run ∧
      t'.mem = t.mem ∧ t'.out = t.out ∧
      (∀ (q : Nat) (_ : q < 8), q ≠ r → t'.regs[q] = t.regs[q]) ∧
      ((∀ imm, i ≠ .ldi r imm) → t'.regs[r] = v) ∧ (∀ imm, i = .ldi r imm → t'.regs[r] = imm)

-- Runs

/-- R109, R150: a JMP whose register holds its own address is an endless loop: every step leaves the state as it is, and
the run never faults. -/
def Obligations.SelfJumpLoopsForever : Prop :=
  ∀ (m : OpcodeParams) (s : State) (o : Byte) (a : Nat) (_ : a < 8), m.Valid → s.run = .running →
    BytesAt s.mem s.pc [m.jmp, o] → SelectsReg o a → s.regs[a].toNat = s.pc →
    (∀ k, stateAfter m s k = some s) ∧ SafeRun m s

/-- R214, R108: "a run that does not end eventually repeats a state" (of the engine; the output may have grown). -/
def Obligations.EndlessRunRepeatsState : Prop :=
  ∀ (m : OpcodeParams) (s : State), s.pc ≤ 256 → (∀ k, ∃ t, stateAfter m s k = some t) →
    ∃ (j k : Nat) (t u : State), j < k ∧ stateAfter m s j = some t ∧ stateAfter m s k = some u ∧ t.SameEngine u

-- Reset and load

/-- R201, R42: what construction leaves, whatever the two open reset values are. -/
def Obligations.ConstructionLeaves : Prop :=
  ∀ p : ResetParams,
    (State.construct p).pc = 0 ∧ (State.construct p).run = .running ∧ (State.construct p).out = [] ∧
    (∀ a, a ≤ 255 → (State.construct p).mem.read a = .ok 0x00) ∧
    (∀ (i : Nat) (_ : i < 8), (State.construct p).getReg i = .ok p.gpr[i]) ∧ (State.construct p).fl = p.fl

/-- The model's choice (log entries 2 and 3; the defaults of decisions D3 and D4): after reset every register and FL hold
0x00. And R56, R80: a zero-filled memory is no program: the first step from reset is UnknownInstruction at 0. -/
def Obligations.ResetDefaults : Prop :=
  (∀ i, i < 8 → State.reset.getReg i = .ok 0x00) ∧ State.reset.fl = 0x00 ∧
  step State.reset = .next { State.reset with run := .faulted .unknownInstruction 0 }

/-- R205: loading an image. With every address in 0 to 255 it succeeds, each address then reads as the last value written
there, or as before; with an address above 255 it is an AddressFault to the loader (log entry 17: and no state); nothing but memory changes; and a
program of more than 256 bytes cannot be loaded. -/
def Obligations.LoaderContract : Prop :=
  (∀ (s : State) (image : List Host.Cell), s.mem.wf → (∀ c ∈ image, c.1 ≤ 255) →
    ∃ mem', s.load image = .ok { s with mem := mem' } ∧ mem'.wf ∧
      (∀ earlier c later, image = earlier ++ c :: later → (∀ d ∈ later, d.1 ≠ c.1) → mem'.read c.1 = .ok c.2) ∧
      (∀ a, (∀ c ∈ image, c.1 ≠ a) → mem'.read a = s.mem.read a)) ∧
  (∀ (s : State) (image : List Host.Cell), (∃ c ∈ image, 255 < c.1) → s.load image = .error .addressFault) ∧
  (∀ (s : State) (bytes : List Byte), 256 < bytes.length → s.load (imageAt 0 bytes) = .error .addressFault)
end

