-- ==== Sys2Proof/Laws/Decode.lean ====
section
/-! SUPPORT. The decoder: its bit fields, the identity it finds, and what an answered instruction looks like. -/

namespace Sys2Proof

open Machine

/-- The bit-field helper at bits 7:6 is the extraction of those bits. -/
theorem operandCount_eq_topBits (opcode : Byte) : operandCount opcode = topBits opcode := by
  simp [operandCount, topBits, field]

theorem operandCount_lt (opcode : Byte) : operandCount opcode < 4 := Nat.mod_lt _ (by decide)

/-- The bit-field helper at bits 2:0 is the register that an operand byte selects. -/
theorem selectsReg_iff (o : Byte) (a : Nat) : SelectsReg o a ↔ regOperand o = a := by
  simp [SelectsReg, regOperand, field]

theorem regOperand_lt (o : Byte) : regOperand o < 8 := Nat.mod_lt _ (by decide)

/-- A register index written as a canonical operand byte reads back. -/
theorem regOperand_ofNat {a : Nat} (h : a < 8) : regOperand (BitVec.ofNat 8 a) = a := by
  simp only [regOperand, field, BitVec.toNat_ofNat, Nat.shiftRight_zero]
  omega

@[simp] theorem mem_mnemonic_all (k : Mnemonic) : k ∈ Mnemonic.all := by cases k <;> decide

/-- An identity the decoder finds is that of an instruction with this opcode byte. -/
theorem byteOf_of_identify {m : OpcodeParams} {opcode : Byte} {k : Mnemonic} (h : identify m opcode = some k) :
    m.byteOf k = opcode := by
  simpa using List.find?_some h

theorem OpcodeParams.Valid.count {m : OpcodeParams} (hm : m.Valid) (k : Mnemonic) :
    operandCount (m.byteOf k) = k.arity := hm.1 k (mem_mnemonic_all k)

/-- The eight opcode bytes are distinct, so a byte has one identity. -/
theorem OpcodeParams.Valid.byteOf_inj {m : OpcodeParams} (hm : m.Valid) {k l : Mnemonic}
    (h : m.byteOf k = m.byteOf l) : k = l :=
  List.inj_on_of_nodup_map hm.2 (mem_mnemonic_all k) (mem_mnemonic_all l) h

theorem identify_byteOf {m : OpcodeParams} (hm : m.Valid) (k : Mnemonic) : identify m (m.byteOf k) = some k := by
  rcases h : identify m (m.byteOf k) with _ | l
  · have := List.find?_eq_none.mp h k (mem_mnemonic_all k)
    simp at this
  · rw [hm.byteOf_inj (byteOf_of_identify h)]

theorem isOpcode_iff (m : OpcodeParams) (opcode : Byte) : IsOpcode m opcode ↔ ∃ k, m.byteOf k = opcode := by
  constructor
  · rintro (rfl | rfl | rfl | rfl | rfl | rfl | rfl | rfl)
    exacts [⟨.ldi, rfl⟩, ⟨.prn, rfl⟩, ⟨.hlt, rfl⟩, ⟨.add, rfl⟩, ⟨.cmp, rfl⟩, ⟨.jmp, rfl⟩, ⟨.jeq, rfl⟩, ⟨.jne, rfl⟩]
  · rintro ⟨k, rfl⟩
    cases k <;> simp [IsOpcode, OpcodeParams.byteOf]

/-- An assembled instruction is the one its identity and operand bytes say, and it is well formed. -/
theorem assemble_some {m : OpcodeParams} {k : Mnemonic} {operands : List Byte} {i : Instr}
    (h : assemble k operands = some i) :
    i.mnemonic = k ∧ IsEncodingOf m (m.byteOf k :: operands) i ∧ i.WellFormed := by
  have lt := regOperand_lt
  cases k <;> simp only [assemble] at h <;> split at h <;> cases h <;>
    simp [IsEncodingOf, OpcodeParams.byteOf, selectsReg_iff, Instr.mnemonic, Instr.WellFormed, Instr.indices, RegIndexOk,
      immOperand, lt]

/-- The bytes of a pattern are an opcode byte and operand bytes that assemble to the instruction. -/
theorem isEncodingOf_inv {m : OpcodeParams} {own : List Byte} {i : Instr} (h : IsEncodingOf m own i) :
    ∃ operands, own = m.byteOf i.mnemonic :: operands ∧ operands.length = i.mnemonic.arity ∧
      assemble i.mnemonic operands = some i := by
  cases i <;> simp only [IsEncodingOf, selectsReg_iff] at h
  case add | cmp => obtain ⟨o, p, rfl, rfl, rfl⟩ := h; exact ⟨_, rfl, rfl, rfl⟩
  case hlt => exact ⟨[], h, rfl, rfl⟩
  all_goals obtain ⟨o, rfl, rfl⟩ := h; exact ⟨_, rfl, rfl, rfl⟩

/-- An identity with as many operand bytes as its arity is an instruction. -/
theorem assemble_isSome {k : Mnemonic} {operands : List Byte} (h : operands.length = k.arity) :
    ∃ i, assemble k operands = some i := by
  cases k <;> rcases operands with _ | ⟨o, _ | ⟨p, _ | _⟩⟩ <;> simp [Mnemonic.arity] at h <;> exact ⟨_, rfl⟩

/-- The decoder says once what it can answer: an instruction whose bytes are the opcode byte and the `n` after it; or a
missing operand byte; or, with the operand bytes there, an opcode without an instruction. -/
theorem decode_cons_cases (m : OpcodeParams) (opcode : Byte) (rest : List Byte) :
    (rest.length < operandCount opcode ∧ decode m (opcode :: rest) = .error (.missingOperand opcode)) ∨
    (operandCount opcode ≤ rest.length ∧
      (identify m opcode).bind (assemble · (rest.take (operandCount opcode))) = none ∧
      decode m (opcode :: rest) = .error (.unknownOpcode opcode)) ∨
    (operandCount opcode ≤ rest.length ∧ ∃ k i, identify m opcode = some k ∧
      assemble k (rest.take (operandCount opcode)) = some i ∧
      decode m (opcode :: rest) = .ok (i, rest.drop (operandCount opcode))) := by
  by_cases hl : rest.length < operandCount opcode
  · exact .inl ⟨hl, by simp [decode, hl]⟩
  · right
    rcases h : (identify m opcode).bind (assemble · (rest.take (operandCount opcode))) with _ | i
    · exact .inl ⟨by omega, rfl, by simp only [decode, if_neg hl, h]⟩
    · obtain ⟨k, hk, hi⟩ := Option.bind_eq_some_iff.mp h
      exact .inr ⟨by omega, k, i, hk, hi, by simp only [decode, if_neg hl, h]⟩

/-- What the decoder answers is well formed, whatever the bytes (R25). -/
theorem decode_wellFormed {m : OpcodeParams} {bytes rest : List Byte} {i : Instr}
    (h : decode m bytes = .ok (i, rest)) : i.WellFormed := by
  cases bytes with
  | nil => cases h
  | cons opcode tail =>
    rcases decode_cons_cases m opcode tail with ⟨-, h'⟩ | ⟨-, -, h'⟩ | ⟨-, k, j, -, hj, h'⟩ <;> rw [h'] at h <;> cases h
    exact (assemble_some (m := m) hj).2.2

end Sys2Proof
end

