-- ==== Sys2Proof/Laws/State.lean ====
section
/-! SUPPORT. One lemma per field of State per update, and what the fields hold after construction. -/

namespace Sys2Proof.Machine

@[simp] theorem setPc_regs (s : State) (n : Nat) : (s.setPc n).regs = s.regs := rfl
@[simp] theorem setPc_pc (s : State) (n : Nat) : (s.setPc n).pc = n := rfl
@[simp] theorem setPc_fl (s : State) (n : Nat) : (s.setPc n).fl = s.fl := rfl
@[simp] theorem setPc_run (s : State) (n : Nat) : (s.setPc n).run = s.run := rfl
@[simp] theorem setPc_mem (s : State) (n : Nat) : (s.setPc n).mem = s.mem := rfl
@[simp] theorem setPc_out (s : State) (n : Nat) : (s.setPc n).out = s.out := rfl

@[simp] theorem advance_regs (s : State) (w : Nat) : (s.advance w).regs = s.regs := rfl
@[simp] theorem advance_pc (s : State) (w : Nat) : (s.advance w).pc = s.pc + w := rfl
@[simp] theorem advance_fl (s : State) (w : Nat) : (s.advance w).fl = s.fl := rfl
@[simp] theorem advance_run (s : State) (w : Nat) : (s.advance w).run = s.run := rfl
@[simp] theorem advance_mem (s : State) (w : Nat) : (s.advance w).mem = s.mem := rfl
@[simp] theorem advance_out (s : State) (w : Nat) : (s.advance w).out = s.out := rfl

@[simp] theorem emit_regs (s : State) (v : Byte) : (s.emit v).regs = s.regs := rfl
@[simp] theorem emit_pc (s : State) (v : Byte) : (s.emit v).pc = s.pc := rfl
@[simp] theorem emit_fl (s : State) (v : Byte) : (s.emit v).fl = s.fl := rfl
@[simp] theorem emit_run (s : State) (v : Byte) : (s.emit v).run = s.run := rfl
@[simp] theorem emit_mem (s : State) (v : Byte) : (s.emit v).mem = s.mem := rfl
@[simp] theorem emit_out (s : State) (v : Byte) : (s.emit v).out = s.out ++ [v] := rfl

@[simp] theorem setRun_regs (s : State) (r : RunState) : (s.setRun r).regs = s.regs := rfl
@[simp] theorem setRun_pc (s : State) (r : RunState) : (s.setRun r).pc = s.pc := rfl
@[simp] theorem setRun_fl (s : State) (r : RunState) : (s.setRun r).fl = s.fl := rfl
@[simp] theorem setRun_run (s : State) (r : RunState) : (s.setRun r).run = r := rfl
@[simp] theorem setRun_mem (s : State) (r : RunState) : (s.setRun r).mem = s.mem := rfl
@[simp] theorem setRun_out (s : State) (r : RunState) : (s.setRun r).out = s.out := rfl

@[simp] theorem raise_regs (s : State) (k : FaultKind) : (s.raise k).regs = s.regs := rfl
@[simp] theorem raise_pc (s : State) (k : FaultKind) : (s.raise k).pc = s.pc := rfl
@[simp] theorem raise_fl (s : State) (k : FaultKind) : (s.raise k).fl = s.fl := rfl
@[simp] theorem raise_run (s : State) (k : FaultKind) : (s.raise k).run = .faulted k s.pc := rfl
@[simp] theorem raise_mem (s : State) (k : FaultKind) : (s.raise k).mem = s.mem := rfl
@[simp] theorem raise_out (s : State) (k : FaultKind) : (s.raise k).out = s.out := rfl

@[simp] theorem setFlags_regs (s : State) (f : Byte) : (s.setFlags f).regs = s.regs := rfl
@[simp] theorem setFlags_pc (s : State) (f : Byte) : (s.setFlags f).pc = s.pc := rfl
@[simp] theorem setFlags_fl (s : State) (f : Byte) : (s.setFlags f).fl = f := rfl
@[simp] theorem setFlags_run (s : State) (f : Byte) : (s.setFlags f).run = s.run := rfl
@[simp] theorem setFlags_mem (s : State) (f : Byte) : (s.setFlags f).mem = s.mem := rfl
@[simp] theorem setFlags_out (s : State) (f : Byte) : (s.setFlags f).out = s.out := rfl

@[simp] theorem construct_regs (p : ResetParams) : (State.construct p).regs = p.gpr := rfl
@[simp] theorem construct_pc (p : ResetParams) : (State.construct p).pc = 0 := rfl
@[simp] theorem construct_fl (p : ResetParams) : (State.construct p).fl = p.fl := rfl
@[simp] theorem construct_run (p : ResetParams) : (State.construct p).run = .running := rfl
@[simp] theorem construct_mem (p : ResetParams) : (State.construct p).mem = [] := rfl
@[simp] theorem construct_out (p : ResetParams) : (State.construct p).out = [] := rfl

end Sys2Proof.Machine
end

