-- ==== Sys2Proof/Laws/Effects.lean ====
section
/-! SUPPORT. The shared operations of the meanings: what each can do, said once; and the inversion of `exec`. -/

namespace Sys2Proof.Machine

@[simp] theorem complete_ok (s t : State) : s.complete (.ok t) = .next t := rfl
@[simp] theorem complete_error (s : State) (k : FaultKind) : s.complete (.error k) = .next (s.raise k) := rfl

theorem getReg_of_lt (s : State) {i : Nat} (h : i < 8) : s.getReg i = .ok s.regs[i] := dif_pos h
theorem getReg_of_ge (s : State) {i : Nat} (h : 8 ≤ i) : s.getReg i = .error .registerFault := dif_neg (by omega)
theorem setReg_of_lt (s : State) {i : Nat} (h : i < 8) (v : Byte) :
    s.setReg i v = .ok { s with regs := s.regs.set i v h } := dif_pos h
theorem setReg_of_ge (s : State) {i : Nat} (h : 8 ≤ i) (v : Byte) : s.setReg i v = .error .registerFault :=
  dif_neg (by omega)

theorem branch_false (s : State) (a : Nat) : s.branch false a = .ok (s.advance 2) := rfl
theorem branch_true_of_lt (s : State) {a : Nat} (h : a < 8) :
    s.branch true a = .ok (s.setPc s.regs[a].toNat) := by
  simp only [State.branch, getReg_of_lt s h]; rfl
theorem branch_true_of_ge (s : State) {a : Nat} (h : 8 ≤ a) : s.branch true a = .error .registerFault := by
  simp only [State.branch, getReg_of_ge s h]; rfl

/-- E read through the bit-field helper is bit 0 of FL. -/
theorem equalFlag_eq (s : State) : s.equalFlag = s.fl.getLsbD 0 := by
  have h : ∀ f : Byte, (field f 0 1 == 1) = f.getLsbD 0 := by decide
  exact h s.fl

/-- The comparator's result is one of three bytes. -/
theorem compareBytes_cases (va vb : Byte) :
    compareBytes va vb = 0x01 ∨ compareBytes va vb = 0x02 ∨ compareBytes va vb = 0x04 := by
  unfold compareBytes
  split
  · exact .inl rfl
  · split
    · exact .inr (.inl rfl)
    · exact .inr (.inr rfl)

/-- Every instruction leads to a next state (R111): the model neither stops on one nor refuses one. -/
theorem exec_isNext (i : Instr) (s : State) : ∃ t, exec i s = .next t := by
  have h : ∀ e : Except FaultKind State, ∃ t, s.complete e = .next t := fun e => by cases e <;> exact ⟨_, rfl⟩
  cases i with
  | hlt => exact ⟨_, rfl⟩
  | _ => exact h _

/-- What a state can be after the effect of an instruction: fault entry for a bad register index that it reads or writes
(an untaken JEQ or JNE reads none), or the effect of the instruction's rule, on registers that exist. -/
inductive EffectOf (s : State) : Instr → State → Prop where
  | badIndex {i a} : a ∈ i.indices → 8 ≤ a → (∀ c, i = .jeq c → s.fl.getLsbD 0) →
    (∀ c, i = .jne c → ¬ s.fl.getLsbD 0) → EffectOf s i (s.raise .registerFault)
  | ldi {a imm} (h : a < 8) : EffectOf s (.ldi a imm) { s with regs := s.regs.set a imm h, pc := s.pc + 3 }
  | prn {a} (_ : a < 8) : EffectOf s (.prn a) { s with out := s.out ++ [s.regs[a]], pc := s.pc + 2 }
  | add {a b} (h : a < 8) (_ : b < 8) :
    EffectOf s (.add a b) { s with regs := s.regs.set a (s.regs[a] + s.regs[b]) h, pc := s.pc + 3 }
  | cmp {a b} (_ : a < 8) (_ : b < 8) :
    EffectOf s (.cmp a b) { s with fl := compareBytes s.regs[a] s.regs[b], pc := s.pc + 3 }
  | jmp {a} (_ : a < 8) : EffectOf s (.jmp a) { s with pc := s.regs[a].toNat }
  | jeqTaken {a} (_ : a < 8) : s.fl.getLsbD 0 → EffectOf s (.jeq a) { s with pc := s.regs[a].toNat }
  | jeqNot {a} : ¬ s.fl.getLsbD 0 → EffectOf s (.jeq a) { s with pc := s.pc + 2 }
  | jneTaken {a} (_ : a < 8) : ¬ s.fl.getLsbD 0 → EffectOf s (.jne a) { s with pc := s.regs[a].toNat }
  | jneNot {a} : s.fl.getLsbD 0 → EffectOf s (.jne a) { s with pc := s.pc + 2 }
  | hlt : EffectOf s .hlt { s with run := .halted, pc := s.pc + 1 }

theorem effect_of_branch {s t : State} {taken : Bool} {a : Nat} (h : s.complete (s.branch taken a) = .next t) :
    (taken = true ∧ 8 ≤ a ∧ t = s.raise .registerFault) ∨
    (taken = true ∧ ∃ _ : a < 8, t = { s with pc := s.regs[a].toNat }) ∨
    (taken = false ∧ t = { s with pc := s.pc + 2 }) := by
  cases taken with
  | false => cases h; exact .inr (.inr ⟨rfl, rfl⟩)
  | true =>
    by_cases ha : a < 8
    · rw [branch_true_of_lt s ha] at h; cases h; exact .inr (.inl ⟨rfl, ha, rfl⟩)
    · rw [branch_true_of_ge s (by omega)] at h; cases h; exact .inl ⟨rfl, by omega, rfl⟩

/-- Everything `exec` can do. -/
theorem exec_cases {i : Instr} {s t : State} (h : exec i s = .next t) : EffectOf s i t := by
  have bad : ∀ {i : Instr} {a : Nat}, a ∈ i.indices → 8 ≤ a → (∀ c, i ≠ .jeq c) → (∀ c, i ≠ .jne c) →
      Host.Outcome.next (s.raise .registerFault) = (.next t : Host.Outcome State Fault Refusal) → EffectOf s i t :=
    fun hm ha h1 h2 e => Host.Outcome.next.inj e ▸
      .badIndex hm ha (fun c hc => absurd hc (h1 c)) (fun c hc => absurd hc (h2 c))
  cases i with
  | ldi a imm =>
    simp only [exec, execLdi] at h
    by_cases ha : a < 8
    · rw [setReg_of_lt s ha] at h; cases h; exact .ldi ha
    · rw [setReg_of_ge s (by omega)] at h; exact bad (a := a) (by simp [Instr.indices]) (by omega) (by simp) (by simp) h
  | prn a =>
    simp only [exec, execPrn] at h
    by_cases ha : a < 8
    · rw [getReg_of_lt s ha] at h; cases h; exact .prn ha
    · rw [getReg_of_ge s (by omega)] at h; exact bad (a := a) (by simp [Instr.indices]) (by omega) (by simp) (by simp) h
  | add a b =>
    simp only [exec, execAdd] at h
    by_cases ha : a < 8
    · by_cases hb : b < 8
      · rw [getReg_of_lt s ha, getReg_of_lt s hb] at h
        simp only [bind, Except.bind, aluApply, setReg_of_lt s ha] at h
        cases h; exact .add ha hb
      · rw [getReg_of_lt s ha, getReg_of_ge s (by omega)] at h
        exact bad (a := b) (by simp [Instr.indices]) (by omega) (by simp) (by simp) h
    · rw [getReg_of_ge s (by omega)] at h; exact bad (a := a) (by simp [Instr.indices]) (by omega) (by simp) (by simp) h
  | cmp a b =>
    simp only [exec, execCmp] at h
    by_cases ha : a < 8
    · by_cases hb : b < 8
      · rw [getReg_of_lt s ha, getReg_of_lt s hb] at h; cases h; exact .cmp ha hb
      · rw [getReg_of_lt s ha, getReg_of_ge s (by omega)] at h
        exact bad (a := b) (by simp [Instr.indices]) (by omega) (by simp) (by simp) h
    · rw [getReg_of_ge s (by omega)] at h; exact bad (a := a) (by simp [Instr.indices]) (by omega) (by simp) (by simp) h
  | jmp a =>
    rcases effect_of_branch h with ⟨-, ha, rfl⟩ | ⟨-, ha, rfl⟩ | ⟨h, -⟩
    · exact .badIndex (a := a) (by simp [Instr.indices]) ha (by simp) (by simp)
    · exact .jmp ha
    · cases h
  | jeq a =>
    rcases effect_of_branch h with ⟨he, ha, rfl⟩ | ⟨he, ha, rfl⟩ | ⟨he, rfl⟩
    · exact .badIndex (a := a) (by simp [Instr.indices]) ha (fun _ _ => equalFlag_eq s ▸ he) (by simp)
    · exact .jeqTaken ha (equalFlag_eq s ▸ he)
    · exact .jeqNot (by rw [← equalFlag_eq, he]; decide)
  | jne a =>
    rcases effect_of_branch h with ⟨he, ha, rfl⟩ | ⟨he, ha, rfl⟩ | ⟨he, rfl⟩
    · exact .badIndex (a := a) (by simp [Instr.indices]) ha (by simp)
        (fun _ _ => by rw [← equalFlag_eq]; simpa using he)
    · exact .jneTaken ha (by rw [← equalFlag_eq]; simpa using he)
    · exact .jneNot (by rw [← equalFlag_eq]; simpa using he)
  | hlt => cases h; exact .hlt

end Sys2Proof.Machine
end

