-- ==== Sys2Proof/Laws/Memory.lean ====
section
/-! SUPPORT. Memory: every operation keeps the canonical form; a read after a write; what a sequence of reads and a load
can do. -/

namespace Sys2Proof.Machine

namespace Memory

theorem mem_push {a : Nat} {v : Byte} {m : Memory} {c : Host.Cell} (h : c ∈ Memory.push a v m) :
    (c = (a, v) ∧ v ≠ unfilled) ∨ c ∈ m := by
  unfold Memory.push at h
  split at h
  · exact .inr h
  · rcases List.mem_cons.mp h with h | h
    · exact .inl ⟨h, ‹_›⟩
    · exact .inr h

/-- A stored memory holds the new cell and cells of the old one. -/
theorem mem_store {m : Memory} {a : Nat} {v : Byte} {c : Host.Cell} (h : c ∈ m.store a v) :
    (c = (a, v) ∧ v ≠ unfilled) ∨ c ∈ m := by
  induction m with
  | nil => exact mem_push h
  | cons d m ih =>
    obtain ⟨b, w⟩ := d
    unfold Memory.store at h
    split at h
    · exact mem_push h
    · split at h
      · exact (mem_push h).imp_right (List.mem_cons_of_mem _)
      · rcases List.mem_cons.mp h with h | h
        · exact .inr (h ▸ List.mem_cons_self)
        · exact (ih h).imp_right (List.mem_cons_of_mem _)

theorem pairwise_push {a : Nat} {v : Byte} {m : Memory} (hm : m.Pairwise (fun c d => c.1 < d.1))
    (ha : ∀ c ∈ m, a < c.1) : (Memory.push a v m).Pairwise (fun c d => c.1 < d.1) := by
  unfold Memory.push
  split
  · exact hm
  · exact List.pairwise_cons.mpr ⟨ha, hm⟩

theorem pairwise_store {m : Memory} (hm : m.Pairwise (fun c d => c.1 < d.1)) (a : Nat) (v : Byte) :
    (m.store a v).Pairwise (fun c d => c.1 < d.1) := by
  induction m with
  | nil => exact pairwise_push .nil (by simp)
  | cons d m ih =>
    obtain ⟨b, w⟩ := d
    obtain ⟨hb, hm'⟩ := List.pairwise_cons.mp hm
    unfold Memory.store
    split
    · rename_i hab
      refine pairwise_push hm fun c hc => ?_
      rcases List.mem_cons.mp hc with rfl | hc
      · exact hab
      · exact hab.trans (hb c hc)
    · split
      · rename_i hab
        exact pairwise_push hm' fun c hc => hab ▸ hb c hc
      · refine List.pairwise_cons.mpr ⟨fun c hc => ?_, ih hm'⟩
        rcases mem_store hc with ⟨rfl, -⟩ | hc
        · simp only; omega
        · exact hb c hc

/-- A store inside memory keeps the canonical form. -/
theorem wf_store {m : Memory} (hm : m.wf) {a : Nat} (ha : a < Config.memSize) (v : Byte) : (m.store a v).wf := by
  refine ⟨pairwise_store hm.1 a v, fun c hc => ?_⟩
  rcases mem_store hc with ⟨rfl, hv⟩ | hc
  · exact ⟨ha, hv⟩
  · exact hm.2 c hc

/-- Below the lowest listed address nothing is listed. -/
theorem lookup_of_lt {m : Memory} {a : Nat} (h : ∀ c ∈ m, a < c.1) : m.lookup a = unfilled := by
  induction m with
  | nil => rfl
  | cons d m ih =>
    obtain ⟨b, w⟩ := d
    have hb : a < b := h (b, w) List.mem_cons_self
    unfold Memory.lookup
    rw [if_neg (by omega)]
    exact ih fun c hc => h c (List.mem_cons_of_mem _ hc)

theorem lookup_push {m : Memory} {a : Nat} (h : ∀ c ∈ m, a < c.1) (v : Byte) (b : Nat) :
    (Memory.push a v m).lookup b = if b = a then v else m.lookup b := by
  unfold Memory.push
  split
  · rename_i hv
    split
    · rename_i hb
      rw [hb, lookup_of_lt h, hv]
    · rfl
  · rfl

/-- A lookup after a store: the new value at its address, the old byte everywhere else. -/
theorem lookup_store {m : Memory} (hm : m.Pairwise (fun c d => c.1 < d.1)) (a : Nat) (v : Byte) (b : Nat) :
    (m.store a v).lookup b = if b = a then v else m.lookup b := by
  induction m with
  | nil => exact lookup_push (by simp) v b
  | cons d m ih =>
    obtain ⟨c, w⟩ := d
    obtain ⟨hc, hm'⟩ := List.pairwise_cons.mp hm
    unfold Memory.store
    split
    · rename_i hac
      refine lookup_push (fun e he => ?_) v b
      rcases List.mem_cons.mp he with rfl | he
      · exact hac
      · exact hac.trans (hc e he)
    · split
      · rename_i hac
        rw [lookup_push (fun e he => hac ▸ hc e he)]
        by_cases hb : b = a
        · rw [if_pos hb, if_pos hb]
        · rw [if_neg hb, if_neg hb, Memory.lookup, if_neg (by omega)]
      · rename_i hac
        by_cases hb : b = c
        · rw [Memory.lookup, if_pos hb, if_neg (by omega), Memory.lookup, if_pos hb]
        · rw [Memory.lookup, if_neg hb, ih hm', Memory.lookup, if_neg hb]

theorem wf_nil : Memory.wf [] := ⟨.nil, by simp⟩

theorem read_of_lt (m : Memory) {a : Nat} (h : a < 256) : m.read a = .ok (m.lookup a) := if_pos h

theorem read_of_ge (m : Memory) {a : Nat} (h : 256 ≤ a) : m.read a = .error .addressFault :=
  if_neg (Nat.not_lt.mpr h)

/-- A read succeeds inside memory only. -/
theorem read_ok {m : Memory} {a : Nat} {v : Byte} (h : m.read a = .ok v) : a < 256 ∧ m.lookup a = v := by
  by_cases ha : a < 256
  · rw [read_of_lt m ha] at h
    exact ⟨ha, Except.ok.inj h⟩
  · rw [read_of_ge m (by omega)] at h
    cases h

/-- A read fails outside memory only, and then with AddressFault. -/
theorem read_error {m : Memory} {a : Nat} {k : FaultKind} (h : m.read a = .error k) :
    256 ≤ a ∧ k = .addressFault := by
  by_cases ha : a < 256
  · rw [read_of_lt m ha] at h
    cases h
  · rw [read_of_ge m (by omega)] at h
    exact ⟨by omega, (Except.error.inj h).symm⟩

theorem read_nil {a : Nat} (h : a < 256) : Memory.read [] a = .ok 0 := if_pos h

theorem write_of_lt (m : Memory) {a : Nat} (h : a < 256) (v : Byte) : m.write a v = .ok (m.store a v) := if_pos h

theorem write_of_ge (m : Memory) {a : Nat} (h : 256 ≤ a) (v : Byte) : m.write a v = .error .addressFault :=
  if_neg (Nat.not_lt.mpr h)

/-- A write that succeeds keeps the canonical form. -/
theorem wf_write {m m' : Memory} {a : Nat} {v : Byte} (hm : m.wf) (h : m.write a v = .ok m') : m'.wf := by
  by_cases ha : a < 256
  · rw [write_of_lt m ha] at h
    exact Except.ok.inj h ▸ wf_store hm ha v
  · rw [write_of_ge m (by omega)] at h
    cases h

/-- The memory after reset has the canonical form. -/
theorem reset_wf : State.reset.mem.wf := wf_nil

/-- Reads of `n` bytes succeed exactly when they all lie below 256, and then give the bytes there. -/
theorem readFrom_ok_iff (m : Memory) (n a : Nat) (bytes : List Byte) :
    m.readFrom a n = .ok bytes ↔ bytes.length = n ∧ BytesAt m a bytes := by
  induction n generalizing a bytes with
  | zero =>
    cases bytes with
    | nil => simp [Memory.readFrom, BytesAt]
    | cons b bs => simp [Memory.readFrom]
  | succ n ih =>
    cases bytes with
    | nil =>
      unfold Memory.readFrom
      rcases h : m.read a with k | v
      · simp [bind, Except.bind]
      · rcases h' : m.readFrom (a + 1) n with k | vs <;> simp [bind, Except.bind, pure, Except.pure]
    | cons b bs =>
      have ih' := ih (a + 1) bs
      unfold Memory.readFrom
      rcases h : m.read a with k | v
      · simp [bind, Except.bind, BytesAt, h]
      · rcases h' : m.readFrom (a + 1) n with k | vs
        · rw [h'] at ih'
          simp only [reduceCtorEq, false_iff] at ih'
          simp only [bind, Except.bind, List.length_cons, BytesAt, h, reduceCtorEq, false_iff]
          exact fun hb => ih' ⟨by omega, hb.2.2⟩
        · rw [h'] at ih'
          simp only [Except.ok.injEq] at ih'
          simp only [bind, Except.bind, pure, Except.pure, Except.ok.injEq, List.cons.injEq, ih', List.length_cons,
            BytesAt, h]
          constructor
          · rintro ⟨rfl, h1, h2⟩; exact ⟨by omega, rfl, h2⟩
          · rintro ⟨h1, rfl, h2⟩; exact ⟨rfl, by omega, h2⟩

/-- Reads of `n` bytes fail exactly when one of them lies above 255, and then with AddressFault. -/
theorem readFrom_error {m : Memory} {n a : Nat} {k : FaultKind} (h : m.readFrom a n = .error k) :
    256 < a + n ∧ 1 ≤ n ∧ k = .addressFault := by
  induction n generalizing a k with
  | zero => cases h
  | succ n ih =>
    unfold Memory.readFrom at h
    rcases hr : m.read a with k' | v
    · rw [hr] at h
      obtain ⟨h1, rfl⟩ := read_error hr
      exact ⟨by omega, by omega, (Except.error.inj h).symm⟩
    · rw [hr] at h
      rcases hr' : m.readFrom (a + 1) n with k' | vs
      · obtain ⟨h1, h2, hk⟩ := ih hr'
        simp only [bind, Except.bind, hr'] at h
        exact ⟨by omega, by omega, (Except.error.inj h).symm.trans hk⟩
      · simp [bind, Except.bind, hr', pure, Except.pure] at h

/-- Bytes that stand in memory end below 256. -/
theorem bytesAt_le {m : Memory} {a : Nat} {bytes : List Byte} (h : BytesAt m a bytes) (hne : bytes ≠ []) :
    a + bytes.length ≤ 256 := by
  induction bytes generalizing a with
  | nil => exact absurd rfl hne
  | cons b bs ih =>
    obtain ⟨hb, hbs⟩ := h
    have := (read_ok hb).1
    cases bs with
    | nil => simp; omega
    | cons c cs =>
      have := ih hbs (by simp)
      simp only [List.length_cons] at this ⊢
      omega

/-- The bytes that stand at an address are determined by their number. -/
theorem bytesAt_unique {m : Memory} {a : Nat} {xs ys : List Byte} (hx : BytesAt m a xs) (hy : BytesAt m a ys)
    (hl : xs.length = ys.length) : xs = ys := by
  have h1 := (readFrom_ok_iff m ys.length a xs).mpr ⟨hl, hx⟩
  have h2 := (readFrom_ok_iff m ys.length a ys).mpr ⟨rfl, hy⟩
  exact Except.ok.inj (h1.symm.trans h2)

end Memory

/-- One loader write: the state with that cell stored, or an AddressFault and no state. -/
theorem loadByte_eq (s : State) (c : Host.Cell) :
    s.loadByte c = if c.1 < 256 then .ok { s with mem := s.mem.store c.1 c.2 } else .error .addressFault := by
  unfold State.loadByte
  split
  · rename_i h; rw [Memory.write_of_lt _ h]; rfl
  · rename_i h; rw [Memory.write_of_ge _ (by omega)]; rfl

/-- A load changes memory alone, and keeps its canonical form. -/
theorem load_ok {image : List Host.Cell} {s t : State} (h : s.load image = .ok t) :
    (∃ mem', t = { s with mem := mem' }) ∧ (s.mem.wf → t.mem.wf) := by
  induction image generalizing s with
  | nil => cases h; exact ⟨⟨_, rfl⟩, id⟩
  | cons c cs ih =>
    unfold State.load at h
    rw [loadByte_eq] at h
    split at h
    · rename_i hc
      obtain ⟨⟨mem', rfl⟩, hwf⟩ := ih h
      exact ⟨⟨mem', rfl⟩, fun hs => hwf (Memory.wf_store hs hc c.2)⟩
    · cases h

end Sys2Proof.Machine
end

