-- ==== Sys2Proof/Laws/PerInstr.lean ====
section
/-! SUPPORT. One lemma per instruction: the length of its encoding (R70, R73, R84). -/

namespace Sys2Proof.Laws.EncodeLength

/-- An encoding is as long as the instruction: the opcode byte and its operand bytes. -/
def Statement (i : Instr) : Prop := ∀ m : OpcodeParams, (encode m i).length = i.length

theorem ldi (a : Nat) (imm : Byte) : Statement (.ldi a imm) := fun _ => rfl
theorem prn (a : Nat) : Statement (.prn a) := fun _ => rfl
theorem add (a b : Nat) : Statement (.add a b) := fun _ => rfl
theorem cmp (a b : Nat) : Statement (.cmp a b) := fun _ => rfl
theorem jmp (a : Nat) : Statement (.jmp a) := fun _ => rfl
theorem jeq (a : Nat) : Statement (.jeq a) := fun _ => rfl
theorem jne (a : Nat) : Statement (.jne a) := fun _ => rfl
theorem hlt : Statement .hlt := fun _ => rfl

end Sys2Proof.Laws.EncodeLength
end

