-- ==== Sys2Proof/Laws/Step.lean ====
section
/-! SUPPORT. Fetch and step: everything they can do, said once. -/

namespace Sys2Proof.Machine

/-- A fetch succeeds with exactly the bytes that stand at `pc`: the opcode and its `n` operand bytes. -/
theorem fetch_ok_iff (s : State) (bytes : List Byte) :
    s.fetch = .ok bytes ↔ ∃ opcode operands, bytes = opcode :: operands ∧ operands.length = operandCount opcode ∧
      BytesAt s.mem s.pc bytes := by
  unfold State.fetch
  rcases hr : s.mem.read s.pc with k | op
  · simp only [bind, Except.bind, reduceCtorEq, false_iff]
    rintro ⟨o, os, rfl, -, h, -⟩
    rw [hr] at h; cases h
  · rcases hf : s.mem.readFrom (s.pc + 1) (operandCount op) with k | os
    · simp only [bind, Except.bind, hf, reduceCtorEq, false_iff]
      rintro ⟨o, os, rfl, hl, h, hb⟩
      cases hr.symm.trans h
      rw [(Memory.readFrom_ok_iff _ _ _ _).mpr ⟨hl, hb⟩] at hf; cases hf
    · simp only [bind, Except.bind, hf, pure, Except.pure, Except.ok.injEq]
      obtain ⟨hl, hb⟩ := (Memory.readFrom_ok_iff _ _ _ _).mp hf
      constructor
      · rintro rfl; exact ⟨op, os, rfl, hl, hr, hb⟩
      · rintro ⟨o, os', rfl, hl', h, hb'⟩
        cases hr.symm.trans h
        rw [Memory.bytesAt_unique hb hb' (hl.trans hl'.symm)]

/-- A fetch fails only with AddressFault: `pc` is above 255, or an operand byte is. -/
theorem fetch_error {s : State} {k : FaultKind} (h : s.fetch = .error k) :
    k = .addressFault ∧
      (255 < s.pc ∨ ∃ opcode, s.mem.read s.pc = .ok opcode ∧ 255 < s.pc + operandCount opcode) := by
  unfold State.fetch at h
  rcases hr : s.mem.read s.pc with k' | op <;> rw [hr] at h
  · obtain ⟨h1, rfl⟩ := Memory.read_error hr
    exact ⟨(Except.error.inj h).symm, .inl (by omega)⟩
  · rcases hf : s.mem.readFrom (s.pc + 1) (operandCount op) with k' | os <;>
      simp only [bind, Except.bind, hf, pure, Except.pure] at h
    · obtain ⟨h1, h2, rfl⟩ := Memory.readFrom_error hf
      exact ⟨(Except.error.inj h).symm, .inr ⟨op, rfl, by omega⟩⟩
    · cases h

/-- A fetch that succeeds lies below 256. -/
theorem fetch_ok_le {s : State} {opcode : Byte} {operands : List Byte} (h : s.fetch = .ok (opcode :: operands)) :
    s.mem.read s.pc = .ok opcode ∧ operands.length = operandCount opcode ∧ s.pc + operandCount opcode ≤ 255 := by
  obtain ⟨o, os, he, hl, hb⟩ := (fetch_ok_iff s _).mp h
  cases he
  have := Memory.bytesAt_le hb (by simp)
  simp only [List.length_cons] at this
  exact ⟨hb.1, hl, by omega⟩

/-- The bytes of a fetch that decode to an instruction are that instruction's own: nothing is left over. -/
theorem decode_fetched {m : OpcodeParams} {opcode : Byte} {operands : List Byte}
    (hl : operands.length = operandCount opcode) :
    (decode m (opcode :: operands) = .error (.unknownOpcode opcode) ∧
      (identify m opcode).bind (assemble · operands) = none) ∨
    ∃ k i, identify m opcode = some k ∧ assemble k operands = some i ∧ decode m (opcode :: operands) = .ok (i, []) := by
  have ht : operands.take (operandCount opcode) = operands := List.take_of_length_le (by omega)
  have hd : operands.drop (operandCount opcode) = [] := List.drop_of_length_le (by omega)
  rcases decode_cons_cases m opcode operands with ⟨h, -⟩ | ⟨-, hn, h⟩ | ⟨-, k, i, hk, hi, h⟩
  · omega
  · exact .inl ⟨h, ht ▸ hn⟩
  · exact .inr ⟨k, i, hk, ht ▸ hi, hd ▸ h⟩

/-- With a `Valid` opcode map, bytes of a fetch decode to no instruction exactly when the opcode is none of the eight. -/
theorem decode_fetched_unknown_iff {m : OpcodeParams} (hm : m.Valid) {opcode : Byte} {operands : List Byte}
    (hl : operands.length = operandCount opcode) :
    (identify m opcode).bind (assemble · operands) = none ↔ ¬ IsOpcode m opcode := by
  rw [isOpcode_iff]
  constructor
  · rintro hn ⟨k, rfl⟩
    obtain ⟨i, hi⟩ := assemble_isSome (k := k) (operands := operands) (hl.trans (hm.count k))
    rw [identify_byteOf hm k] at hn
    simp [hi] at hn
  · intro hn
    rcases h : identify m opcode with _ | k
    · rfl
    · exact absurd ⟨k, byteOf_of_identify h⟩ hn

/-- A running engine's step is its cycle. -/
theorem stepWith_of_running (m : OpcodeParams) {s : State} (h : s.run = .running) : stepWith m s = cycle m s := by
  simp only [stepWith, h]

/-- A fetch looks at the program counter and memory alone. -/
theorem fetch_congr {s s' : State} (hpc : s'.pc = s.pc) (hmem : s'.mem = s.mem) : s'.fetch = s.fetch := by
  simp only [State.fetch, hpc, hmem]

/-- What a step of a running engine can be. -/
inductive StepOf (m : OpcodeParams) (s : State) : State → Prop where
  /-- The opcode or an operand byte lies above 255. -/
  | address : (255 < s.pc ∨ ∃ opcode, s.mem.read s.pc = .ok opcode ∧ 255 < s.pc + operandCount opcode) →
      StepOf m s (s.raise .addressFault)
  /-- All bytes are there, and they are no instruction. -/
  | unknown {opcode operands} : s.mem.read s.pc = .ok opcode → s.pc + operandCount opcode ≤ 255 →
      operands.length = operandCount opcode → (identify m opcode).bind (assemble · operands) = none →
      StepOf m s (s.raise .unknownInstruction)
  /-- The bytes are an instruction, and the step is its effect. -/
  | effect {operands i t} : BytesAt s.mem s.pc (m.byteOf i.mnemonic :: operands) →
      operands.length = operandCount (m.byteOf i.mnemonic) → s.pc + operandCount (m.byteOf i.mnemonic) ≤ 255 →
      IsEncodingOf m (m.byteOf i.mnemonic :: operands) i → i.WellFormed → exec i s = .next t → StepOf m s t

/-- Everything a step can do. -/
theorem stepWith_cases {m : OpcodeParams} {s t : State} (h : stepWith m s = .next t) :
    s.run = .running ∧ StepOf m s t := by
  unfold stepWith at h
  split at h <;> try cases h
  rename_i hr
  refine ⟨hr, ?_⟩
  unfold cycle at h
  split at h
  · rename_i k hf
    obtain ⟨rfl, hc⟩ := fetch_error hf
    cases h
    exact .address hc
  · rename_i bytes hf
    obtain ⟨op, os, rfl, hl, hb⟩ := (fetch_ok_iff s bytes).mp hf
    have hle := (fetch_ok_le hf).2.2
    rcases decode_fetched (m := m) hl with ⟨hd, hn⟩ | ⟨k, i, hk, hi, hd⟩ <;> rw [hd] at h
    · cases h
      exact .unknown hb.1 hle hl hn
    · cases byteOf_of_identify hk
      obtain ⟨rfl, he, hw⟩ := assemble_some (m := m) hi
      exact .effect hb hl hle he hw h

/-- An engine that runs has a step: it completes an instruction or faults. -/
theorem stepWith_isNext (m : OpcodeParams) {s : State} (h : s.run = .running) : ∃ t, stepWith m s = .next t := by
  simp only [stepWith, h, cycle]
  split
  · exact ⟨_, rfl⟩
  · split
    · exact ⟨_, rfl⟩
    · exact exec_isNext _ _

/-- A fetch that fails makes the step an AddressFault. -/
theorem stepWith_of_short (m : OpcodeParams) {s : State} (h : s.run = .running)
    (hc : 255 < s.pc ∨ ∃ opcode, s.mem.read s.pc = .ok opcode ∧ 255 < s.pc + operandCount opcode) :
    stepWith m s = .next (s.raise .addressFault) := by
  rcases hf : s.fetch with k | bytes
  · obtain ⟨rfl, -⟩ := fetch_error hf
    simp only [stepWith, h, cycle, hf]
  · exfalso
    obtain ⟨op, os, rfl, -, -⟩ := (fetch_ok_iff s bytes).mp hf
    obtain ⟨h1, -, h3⟩ := fetch_ok_le hf
    rcases hc with hc | ⟨o, ho, hc⟩
    · omega
    · cases h1.symm.trans ho; omega

/-- When the bytes at `pc` are an instruction, the step is its effect. -/
theorem stepWith_of_bytes {m : OpcodeParams} (hm : m.Valid) {s : State} (h : s.run = .running) {k : Mnemonic}
    {operands : List Byte} {i : Instr} (hb : BytesAt s.mem s.pc (m.byteOf k :: operands))
    (hi : assemble k operands = some i) (hl : operands.length = k.arity) : stepWith m s = exec i s := by
  have hl' : operands.length = operandCount (m.byteOf k) := hl.trans (hm.count k).symm
  have hf := (fetch_ok_iff s _).mpr ⟨_, _, rfl, hl', hb⟩
  rcases decode_fetched (m := m) hl' with ⟨-, hn⟩ | ⟨k', i', hk, hi', hd⟩
  · rw [identify_byteOf hm k] at hn
    simp [hi] at hn
  · rw [identify_byteOf hm k] at hk
    cases hk
    cases hi.symm.trans hi'
    simp only [stepWith, h, cycle, hf, hd]

end Sys2Proof.Machine
end

