-- ==== Sys2Proof/Tests/Slice0.lean ====
section
/-! SUPPORT. Tests with expected results from the spec (95_test_vectors.md, by their S and T numbers, and the patterns of
30_encoding.md R72), the smoke tests of WellFormed, and one witness per statement whose hypotheses could be empty. -/

namespace Sys2Proof.Tests

open Machine

/-- A running engine at `pc` with these registers and flags and these bytes in memory from `pc` on. -/
def engine (pc : Nat) (regs : Vector Byte 8) (fl : Byte) (bytes : List Byte) : State :=
  match State.reset.load (imageAt pc bytes) with
  | .ok t => { t with pc := pc, regs := regs, fl := fl }
  | .error _ => State.reset

/-- The state a step leads to. -/
def after (s : State) : Option State := nextState? (step s)

-- WellFormed: an ill-formed term for each register operand, which the check refuses (R22: there is no register 8).

theorem test_wf_ldi_register_8 : ¬ (Instr.ldi 8 0).WellFormed := by decide
theorem test_wf_prn_register_8 : ¬ (Instr.prn 8).WellFormed := by decide
theorem test_wf_add_first_register_8 : ¬ (Instr.add 8 0).WellFormed := by decide
theorem test_wf_add_second_register_8 : ¬ (Instr.add 0 8).WellFormed := by decide
theorem test_wf_cmp_first_register_8 : ¬ (Instr.cmp 8 0).WellFormed := by decide
theorem test_wf_cmp_second_register_8 : ¬ (Instr.cmp 0 8).WellFormed := by decide
theorem test_wf_jmp_register_8 : ¬ (Instr.jmp 8).WellFormed := by decide
theorem test_wf_jeq_register_8 : ¬ (Instr.jeq 8).WellFormed := by decide
theorem test_wf_jne_register_8 : ¬ (Instr.jne 8).WellFormed := by decide
theorem test_wf_register_7 : (Instr.add 7 7).WellFormed ∧ Instr.hlt.WellFormed := by decide

-- Decode: every constructor's word, written bit by bit from the patterns of R72.

theorem test_decode_ldi : decode Config.opcodes [0b10000010, 0b00000011, 0b11111111] = .ok (.ldi 3 255, []) := rfl
theorem test_decode_prn : decode Config.opcodes [0b01000111, 0b00000111] = .ok (.prn 7, []) := rfl
theorem test_decode_add : decode Config.opcodes [0b10100000, 0b00000010, 0b00000101] = .ok (.add 2 5, []) := rfl
theorem test_decode_cmp : decode Config.opcodes [0b10100111, 0b00000100, 0b00000001] = .ok (.cmp 4 1, []) := rfl
theorem test_decode_jmp : decode Config.opcodes [0b01010100, 0b00000110] = .ok (.jmp 6, []) := rfl
theorem test_decode_jeq : decode Config.opcodes [0b01010101, 0b00000001] = .ok (.jeq 1, []) := rfl
theorem test_decode_jne : decode Config.opcodes [0b01010110, 0b00000010] = .ok (.jne 2, []) := rfl
theorem test_decode_hlt : decode Config.opcodes [0b00000001, 0b11111111] = .ok (.hlt, [0b11111111]) := rfl
/-- R76: `0x0A` selects R2 and `0xFF` selects R7. -/
theorem test_decode_ignores_high_bits : decode Config.opcodes [0xA0, 0x0A, 0xFF] = .ok (.add 2 7, []) := rfl
/-- R80: 0x00, and a byte with operand count 3. -/
theorem test_decode_unknown : decode Config.opcodes [0x00] = .error (.unknownOpcode 0x00) ∧
    decode Config.opcodes [0xC0, 0, 0, 0] = .error (.unknownOpcode 0xC0) := ⟨rfl, rfl⟩
/-- R82: a missing operand byte is found before the opcode's identity is looked at. -/
theorem test_decode_missing : decode Config.opcodes [0xC0, 0, 0] = .error (.missingOperand 0xC0) := rfl
/-- 95_test_vectors.md 2.2. -/
theorem test_field : field 0x82 6 2 = 2 ∧ field 0xFF 6 2 = 3 ∧ field 0xFA 0 3 = 2 ∧ field 0x04 0 1 = 0 := by decide
/-- 95_test_vectors.md 2.1. -/
theorem test_advance_width : advanceWidth 0x01 = 1 ∧ advanceWidth 0x56 = 2 ∧ advanceWidth 0xA7 = 3 ∧ advanceWidth 0xC0 = 4 :=
  by decide
/-- The table's own match words (spec/opcode_table.json). -/
theorem test_table_words : decodeTableWord 24 0x820000 = some (.ldi 0 0) ∧ decodeTableWord 16 0x4700 = some (.prn 0) ∧
    decodeTableWord 24 0xA00000 = some (.add 0 0) ∧ decodeTableWord 24 0xA70000 = some (.cmp 0 0) ∧
    decodeTableWord 16 0x5400 = some (.jmp 0) ∧ decodeTableWord 16 0x5500 = some (.jeq 0) ∧
    decodeTableWord 16 0x5600 = some (.jne 0) ∧ decodeTableWord 8 0x01 = some .hlt := by decide
/-- A table word placed at reset runs as the first instruction. -/
theorem test_fetch_word : (after (State.reset.withFetchWord 24 0x820307)).map (fun t => (t.regs[3], t.pc)) = some (7, 3) :=
  by decide

-- The blocks (95_test_vectors.md 2.3, 2.4).

theorem test_alu : aluApply .add 200 100 = .ok 44 ∧ aluApply .add 255 255 = .ok 254 ∧
    aluApply (.other "SUB") 1 1 = .error .unsupportedOperation := ⟨rfl, rfl, rfl⟩
theorem test_compare : compareBytes 3 3 = 0x01 ∧ compareBytes 255 0 = 0x02 ∧ compareBytes 127 128 = 0x04 := by decide
theorem test_fault_codes : (FaultKind.addressFault.code, FaultKind.registerFault.code, FaultKind.unknownInstruction.code,
    FaultKind.unsupportedOperation.code, RunState.running.code) = (1, 2, 3, 4, 0) := rfl

-- One step each (95_test_vectors.md 2.5).

/-- T2. -/
theorem test_T2_ldi : (after (engine 0x10 (.replicate 8 0) 0 [0x82, 0x07, 0xFF])).map (fun t => (t.regs[7], t.pc)) =
    some (255, 0x13) := by decide
/-- T5: legal at 253, and `pc` becomes 256. -/
theorem test_T5_ldi_at_253 : (after (engine 253 (.replicate 8 0) 0 [0x82, 0x00, 0x2A])).map (fun t => (t.regs[0], t.pc)) =
    some (42, 256) := by decide
/-- T8: operand byte 0xFA selects R2. -/
theorem test_T8_prn : (after (engine 0 #v[0, 0, 7, 0, 0, 0, 0, 0] 0 [0x47, 0xFA])).map (fun t => (t.out, t.pc)) =
    some ([7], 2) := by decide
/-- T10: nothing is emitted. -/
theorem test_T10_prn_at_255 : (after (engine 255 (.replicate 8 0) 0 [0x47])).map (fun t => (t.run, t.out)) =
    some (.faulted .addressFault 255, []) := by decide
/-- T11: FL survives an ADD. -/
theorem test_T11_add : (after (engine 6 #v[5, 10, 0, 0, 0, 0, 0, 0] 0x04 [0xA0, 0x00, 0x01])).map
    (fun t => (t.regs[0], t.regs[1], t.fl, t.pc)) = some (15, 10, 0x04, 9) := by decide
/-- T13: the same register twice. -/
theorem test_T13_add_same : (after (engine 0 #v[0, 0, 129, 0, 0, 0, 0, 0] 0 [0xA0, 0x02, 0x02])).map (fun t => t.regs[2]) =
    some 2 := by decide
/-- T18: unsigned. -/
theorem test_T18_cmp : (after (engine 0 #v[255, 0, 0, 0, 0, 0, 0, 0] 0 [0xA7, 0x00, 0x01])).map (fun t => (t.fl, t.pc)) =
    some (0x02, 3) := by decide
/-- T19: the old FL is lost entirely. -/
theorem test_T19_cmp_same : (after (engine 0 (.replicate 8 9) 0xFF [0xA7, 0x04, 0x04])).map (fun t => t.fl) =
    some 0x01 := by decide
/-- T21: no advance is added. -/
theorem test_T21_jmp : (after (engine 0x20 (.replicate 8 0) 0 [0x54, 0x00])).map (fun t => t.pc) = some 0 := by decide
/-- T24 and T25. -/
theorem test_T24_T25_jeq : (after (engine 0x0C (.replicate 8 0x10) 0x01 [0x55, 0x02])).map (fun t => t.pc) = some 0x10 ∧
    (after (engine 0x0C (.replicate 8 0x10) 0x04 [0x55, 0x02])).map (fun t => t.pc) = some 0x0E := by decide
/-- T30 and T31. -/
theorem test_T30_T31_jne : (after (engine 0x14 (.replicate 8 0x0C) 0x01 [0x56, 0x03])).map (fun t => t.pc) = some 0x16 ∧
    (after (engine 0x14 (.replicate 8 0x0C) 0x00 [0x56, 0x03])).map (fun t => t.pc) = some 0x0C := by decide
/-- T33. -/
theorem test_T33_hlt_at_255 : (after (engine 255 (.replicate 8 0) 0 [0x01])).map (fun t => (t.run, t.pc)) =
    some (.halted, 256) := by decide
/-- T34, T36, T37, T38, T39. -/
theorem test_faults : (after (engine 3 (.replicate 8 0) 0 [0x00])).map (fun t => t.run) = some (.faulted .unknownInstruction 3) ∧
    (after (engine 253 (.replicate 8 0) 0 [0xC0])).map (fun t => t.run) = some (.faulted .addressFault 253) ∧
    (after (engine 252 (.replicate 8 0) 0 [0xC0])).map (fun t => t.run) = some (.faulted .unknownInstruction 252) ∧
    (after (engine 254 (.replicate 8 0) 0 [0x80])).map (fun t => t.run) = some (.faulted .addressFault 254) ∧
    (after (engine 256 (.replicate 8 0) 0 [])).map (fun t => t.run) = some (.faulted .addressFault 256) := by decide
/-- T40. -/
theorem test_T40_stopped : step { State.reset with run := .halted } = .fault .engineHalted ∧
    step { State.reset with run := .faulted .addressFault 256 } = .fault (.engineFaulted .addressFault 256) := ⟨rfl, rfl⟩
/-- R205: an out-of-range loader write is an AddressFault to the loader. -/
theorem test_loader_256 : State.reset.loadByte (256, 1) = .error .addressFault := rfl

-- Witnesses: for each statement, a case (at a boundary, for each clause) that meets all its hypotheses.

/-- Another legal choice of the five bytes than the default: the statements over `OpcodeParams` are about more than one. -/
def otherOpcodes : OpcodeParams := ⟨0xBF, 0x80, 0x40, 0x7F, 0x48⟩

theorem witness_valid_opcodes : Config.opcodes.Valid ∧ otherOpcodes.Valid := by decide
theorem witness_DecodeEncodeRoundTrip : otherOpcodes.Valid ∧ (Instr.add 7 0).WellFormed ∧
    decode otherOpcodes (encode otherOpcodes (.add 7 0) ++ [0x01]) = .ok (.add 7 0, [0x01]) := ⟨by decide, by decide, rfl⟩
theorem witness_DecodeIffPattern : otherOpcodes.Valid ∧ IsEncodingOf otherOpcodes [0x80, 0xFF, 0x08] (.cmp 7 0) :=
  ⟨by decide, _, _, rfl, rfl, rfl⟩
theorem witness_DecodeRejectsByName : otherOpcodes.Valid ∧ [(0 : Byte), 0].length < topBits 0xC0 ∧
    topBits 0xFF ≤ [(0 : Byte), 0, 0].length ∧ ¬ IsOpcode otherOpcodes 0xFF := by
  refine ⟨by decide, by decide, by decide, ?_⟩
  unfold IsOpcode; decide
theorem witness_DecoderOfOneByte : otherOpcodes.Valid ∧ advanceWidth 0xFF = 4 ∧ identify otherOpcodes 0xBF = some .add ∧
    identify otherOpcodes 0xA0 = none := by decide
theorem witness_ComparatorDecision : (0 : Byte) = 0 ∧ ((1 : Byte) ≠ 0 ∧ (1 : Byte).toNat > (0 : Byte).toNat) ∧
    ((0 : Byte) ≠ 255 ∧ ¬ (0 : Byte).toNat > (255 : Byte).toNat) := by decide
theorem witness_AluLaws : (1 : Byte) ≠ 0 ∧ aluApply .add 1 (BitVec.ofNat 8 (256 - (1 : Byte).toNat)) = .ok 0 := ⟨by decide, rfl⟩
theorem witness_MemoryContract : Memory.wf [(0, 1), (255, 2)] ∧ Memory.read [(0, 1), (255, 2)] 255 = .ok 2 ∧
    Memory.write [(0, 1), (255, 2)] 256 9 = .error .addressFault := ⟨by decide, rfl, rfl⟩
theorem witness_RegisterFileContract : State.reset.getReg 7 = .ok 0 ∧ State.reset.getReg 8 = .error .registerFault := ⟨rfl, rfl⟩
theorem witness_LdiWritesImmediate : 7 < 8 ∧ ∃ t, exec (.ldi 7 255) State.reset = .next t := ⟨by decide, _, rfl⟩
theorem witness_PrnEmitsRegister : 7 < 8 ∧ ∃ t, exec (.prn 7) State.reset = .next t := ⟨by decide, _, rfl⟩
theorem witness_AddWritesSum : 0 < 8 ∧ 7 < 8 ∧ ∃ t, exec (.add 0 7) State.reset = .next t := ⟨by decide, by decide, _, rfl⟩
theorem witness_CmpSetsFlags : 0 < 8 ∧ 7 < 8 ∧ ∃ t, exec (.cmp 0 7) State.reset = .next t := ⟨by decide, by decide, _, rfl⟩
theorem witness_JmpSetsPc : 7 < 8 ∧ ∃ t, exec (.jmp 7) State.reset = .next t := ⟨by decide, _, rfl⟩
theorem witness_JeqJneSelectByEqualBit : 7 < 8 ∧ ∃ t u, exec (.jeq 7) State.reset = .next t ∧
    exec (.jne 7) State.reset = .next u := ⟨by decide, _, _, rfl, rfl⟩
theorem witness_HltHalts : ∃ t, exec .hlt State.reset = .next t := ⟨_, rfl⟩
theorem witness_BadRegisterIndexFaults : 8 ≤ 8 ∧ 7 < 8 ∧
    exec (.add 7 8) State.reset = .next { State.reset with run := .faulted .registerFault 0 } := ⟨by decide, by decide, rfl⟩
theorem witness_WellFormedCompletes : (Instr.cmp 7 7).WellFormed ∧ Instr.hlt.WellFormed := by decide
theorem witness_LdiThenPrnEmitsImmediate : 7 < 8 := by decide
theorem witness_CmpThenBranchDecides : 0 < 8 ∧ 7 < 8 ∧
    State.reset.regs[0] = State.reset.regs[7] ∧ (engine 0 #v[1, 0, 0, 0, 0, 0, 0, 0] 0 []).regs[0] ≠ 0 := by decide

/-- A register that is not the destination, beside an LDI and an ADD. -/
theorem witness_FrameRegisters : (∃ t, exec (.ldi 0 5) State.reset = .next t) ∧ 7 < 8 ∧
    (∀ imm, Instr.ldi 0 5 ≠ .ldi 7 imm) ∧ (∀ b, Instr.ldi 0 5 ≠ .add 7 b) := ⟨⟨_, rfl⟩, by decide, by simp, by simp⟩
theorem witness_FrameFlags : (∃ t, exec (.add 0 1) State.reset = .next t ∧ ∀ a b, Instr.add 0 1 ≠ .cmp a b) ∧
    ∃ t, stepWith Config.opcodes State.reset = .next t ∧ t.run = .faulted .unknownInstruction 0 :=
  ⟨⟨_, rfl, by simp⟩, _, rfl, rfl⟩
theorem witness_FrameMemory : (∃ t, exec (.prn 0) State.reset = .next t) ∧
    ∃ t, stepWith Config.opcodes (engine 0 (.replicate 8 0) 0 [0x47, 0]) = .next t := ⟨⟨_, rfl⟩, _, rfl⟩
theorem witness_FrameOutputAndRun : ∃ t u, exec (.ldi 0 0) State.reset = .next t ∧ (∀ a, Instr.ldi 0 0 ≠ .prn a) ∧
    Instr.ldi 0 0 ≠ .hlt ∧ (Instr.ldi 0 0).WellFormed ∧ exec (.prn 7) State.reset = .next u :=
  ⟨_, _, rfl, by simp, by simp, by decide, rfl⟩

/-- LDI R7 255 in the last three bytes of memory: legal, with a non-canonical operand byte. -/
def ldiAt253 : State := engine 253 (.replicate 8 0) 0 [0x82, 0xFF, 0xFF]

theorem witness_StepRunsDecodedInstruction : ldiAt253.run = .running ∧ BytesAt ldiAt253.mem ldiAt253.pc [0x82, 0xFF, 0xFF] ∧
    decode Config.opcodes [0x82, 0xFF, 0xFF] = .ok (.ldi 7 255, []) := ⟨rfl, ⟨rfl, rfl, rfl, trivial⟩, rfl⟩
theorem witness_StepOfLdi_completes : Config.opcodes.Valid ∧ ldiAt253.run = .running ∧ ldiAt253.mem.read 253 = .ok 0x82 ∧
    ldiAt253.mem.read 254 = .ok 0xFF ∧ ldiAt253.mem.read 255 = .ok 0xFF ∧ SelectsReg 0xFF 7 :=
  ⟨by decide, rfl, rfl, rfl, rfl, rfl⟩
/-- What the step statements ask of a two-byte instruction at 254: it fits, and its register operand is R7. -/
def Fits2 (s : State) (opcode : Byte) : Prop :=
  Config.opcodes.Valid ∧ s.run = .running ∧ s.pc = 254 ∧ s.mem.read s.pc = .ok opcode ∧ s.mem.read (s.pc + 1) = .ok 0x07 ∧
    SelectsReg 0x07 7 ∧ 7 < 8

/-- What they ask of a three-byte instruction at 253, its operands R7 and R0 (the second byte non-canonical). -/
def Fits3 (s : State) (opcode : Byte) : Prop :=
  Config.opcodes.Valid ∧ s.run = .running ∧ s.pc = 253 ∧ s.mem.read s.pc = .ok opcode ∧ s.mem.read (s.pc + 1) = .ok 0x07 ∧
    s.mem.read (s.pc + 2) = .ok 0xF8 ∧ SelectsReg 0x07 7 ∧ SelectsReg 0xF8 0 ∧ 7 < 8

/-- What their fault clauses ask: the opcode byte stands in memory at `pc`, its operand bytes do not all fit below 256. -/
def Short (s : State) (pc : Nat) (opcode : Byte) : Prop :=
  Config.opcodes.Valid ∧ s.run = .running ∧ s.pc = pc ∧ s.mem.read s.pc = .ok opcode

theorem witness_StepOfLdi_faults : Short (engine 254 (.replicate 8 0) 0 [0x82]) 254 0x82 := ⟨by decide, rfl, rfl, rfl⟩
theorem witness_StepOfPrn : Fits2 (engine 254 (.replicate 8 0) 0 [0x47, 0x07]) 0x47 ∧
    Short (engine 255 (.replicate 8 0) 0 [0x47]) 255 0x47 :=
  ⟨⟨by decide, rfl, rfl, rfl, rfl, rfl, by decide⟩, by decide, rfl, rfl, rfl⟩
theorem witness_StepOfAdd : Fits3 (engine 253 (.replicate 8 0) 0 [0xA0, 0x07, 0xF8]) Config.opcodes.add ∧
    Short (engine 254 (.replicate 8 0) 0 [0xA0]) 254 Config.opcodes.add :=
  ⟨⟨by decide, rfl, rfl, rfl, rfl, rfl, rfl, rfl, by decide⟩, by decide, rfl, rfl, rfl⟩
theorem witness_StepOfCmp : Fits3 (engine 253 (.replicate 8 0) 0 [0xA7, 0x07, 0xF8]) Config.opcodes.cmp ∧
    Short (engine 255 (.replicate 8 0) 0 [0xA7]) 255 Config.opcodes.cmp :=
  ⟨⟨by decide, rfl, rfl, rfl, rfl, rfl, rfl, rfl, by decide⟩, by decide, rfl, rfl, rfl⟩
theorem witness_StepOfJmp : Fits2 (engine 254 (.replicate 8 0) 0 [0x54, 0x07]) Config.opcodes.jmp ∧
    Short (engine 255 (.replicate 8 0) 0 [0x54]) 255 Config.opcodes.jmp :=
  ⟨⟨by decide, rfl, rfl, rfl, rfl, rfl, by decide⟩, by decide, rfl, rfl, rfl⟩
theorem witness_StepOfJeqJne : Fits2 (engine 254 (.replicate 8 0) 1 [0x55, 0x07]) Config.opcodes.jeq ∧
    Fits2 (engine 254 (.replicate 8 0) 0 [0x56, 0x07]) Config.opcodes.jne ∧
    Short (engine 255 (.replicate 8 0) 0 [0x55]) 255 Config.opcodes.jeq ∧
    Short (engine 255 (.replicate 8 0) 0 [0x56]) 255 Config.opcodes.jne :=
  ⟨⟨by decide, rfl, rfl, rfl, rfl, rfl, by decide⟩, ⟨by decide, rfl, rfl, rfl, rfl, rfl, by decide⟩,
    ⟨by decide, rfl, rfl, rfl⟩, by decide, rfl, rfl, rfl⟩
theorem witness_StepOfHlt : Short (engine 255 (.replicate 8 0) 0 [0x01]) 255 0x01 := ⟨by decide, rfl, rfl, rfl⟩
theorem witness_StepExactlyWhenRunning : State.reset.run = .running ∧ ({ State.reset with run := .halted } : State).run = .halted ∧
    (State.reset.raise .addressFault).run = .faulted .addressFault 0 := ⟨rfl, rfl, rfl⟩

/-- One step of each kind: it halts, it keeps running, it faults with each of the two kinds a step can raise. -/
theorem witness_step_of_each_kind : ∃ t u v w, Config.opcodes.Valid ∧
    stepWith Config.opcodes (engine 255 (.replicate 8 0) 0 [0x01]) = .next t ∧ t.run = .halted ∧
    stepWith Config.opcodes ldiAt253 = .next u ∧ u.run = .running ∧
    stepWith Config.opcodes (engine 256 (.replicate 8 0) 0 []) = .next v ∧ v.run = .faulted .addressFault 256 ∧
    stepWith Config.opcodes (engine 252 (.replicate 8 0) 0 [0xC0]) = .next w ∧ w.run = .faulted .unknownInstruction 252 :=
  ⟨_, _, _, _, by decide, rfl, rfl, rfl, rfl, rfl, rfl, rfl, rfl⟩
/-- FaultClassification and FaultChangesOnlyRun: an operand byte at 256, of a known and of an unknown opcode. -/
theorem witness_FaultClassification : ∃ t u,
    stepWith Config.opcodes (engine 255 (.replicate 8 0) 0 [0x47]) = .next t ∧ t.run = .faulted .addressFault 255 ∧
    stepWith Config.opcodes (engine 253 (.replicate 8 0) 0 [0xC0]) = .next u ∧ u.run = .faulted .addressFault 253 :=
  ⟨_, _, rfl, rfl, rfl, rfl⟩
/-- One step on a memory that starts with these bytes, at a program counter where they just fit, and where it leads. -/
def LeadsTo (pc : Nat) (fl : Byte) (bytes : List Byte) (pc' : Nat) : Prop :=
  ∃ t, stepWith Config.opcodes (engine pc (.replicate 8 0x20) fl bytes) = .next t ∧
    (engine pc (.replicate 8 0x20) fl bytes).mem.read pc = .ok (bytes.headD 0) ∧ t.run ≠ .faulted .addressFault pc ∧ t.pc = pc'

/-- Each clause of PcUpdateComplete at the top of memory, JEQ and JNE taken and not. -/
theorem witness_PcUpdateComplete : LeadsTo 253 0 [0x82, 0, 0] 256 ∧ LeadsTo 253 0 [0xA0, 0, 0] 256 ∧
    LeadsTo 253 0 [0xA7, 0, 0] 256 ∧ LeadsTo 254 0 [0x47, 0] 256 ∧ LeadsTo 255 0 [0x01] 256 ∧ LeadsTo 254 0 [0x54, 7] 0x20 ∧
    LeadsTo 254 1 [0x55, 7] 0x20 ∧ LeadsTo 254 0 [0x55, 7] 256 ∧ LeadsTo 254 0 [0x56, 7] 0x20 ∧ LeadsTo 254 1 [0x56, 7] 256 := by
  refine ⟨?_, ?_, ?_, ?_, ?_, ?_, ?_, ?_, ?_, ?_⟩ <;> exact ⟨_, rfl, rfl, by decide, rfl⟩
theorem witness_OutputGrowsByPrnAlone : ∃ t, stepWith Config.opcodes (engine 0 (.replicate 8 255) 0 [0x47, 7]) = .next t ∧
    t.out = [255] := ⟨_, rfl, rfl⟩
theorem witness_FlagsOneHotAfterCompare : ∃ t, stepWith Config.opcodes (engine 0 (.replicate 8 0) 0xF8 [0xA7, 0, 1]) = .next t ∧
    t.fl = 0x01 := ⟨_, rfl, rfl⟩
theorem witness_StepKeepsInvariant : ldiAt253.Inv ∧ ∃ t, step ldiAt253 = .next t ∧ t.pc = 256 :=
  ⟨⟨by decide, by decide, trivial⟩, _, rfl, rfl⟩
theorem witness_LoadedRunsMeetInvariant : ∃ s t, (State.construct Config.resetParams).load (imageAt 0 [0x82, 0, 8]) = .ok s ∧
    Reaches Config.opcodes s t ∧ t.pc = 3 := ⟨_, _, rfl, .step .here rfl, rfl⟩
theorem witness_OnlyEqualBitInfluences : (0xFE : Byte).getLsbD 0 = (0x04 : Byte).getLsbD 0 ∧
    ∃ t, stepWith Config.opcodes (engine 0 (.replicate 8 9) 0x04 [0x56, 0]) = .next t := ⟨by decide, _, rfl⟩
theorem witness_OutputInfluencesNothing : ldiAt253.SameEngine (ldiAt253.emit 7) ∧
    ∃ t, stepWith Config.opcodes ldiAt253 = .next t := ⟨⟨rfl, rfl, rfl, rfl, rfl⟩, _, rfl⟩
/-- A memory that differs outside the instruction's own bytes. -/
theorem witness_StepReadsOnlyItsOwnBytes :
    (∃ t, stepWith Config.opcodes (engine 0 (.replicate 8 0) 0 [0x47, 7]) = .next t) ∧
    Memory.read [(0, 0x47), (1, 7), (2, 5)] 0 = (engine 0 (.replicate 8 0) 0 [0x47, 7]).mem.read 0 ∧
    Memory.read [(0, 0x47), (1, 7), (2, 5)] 1 = (engine 0 (.replicate 8 0) 0 [0x47, 7]).mem.read 1 ∧
    topBits 0x47 = 1 := ⟨⟨_, rfl⟩, rfl, rfl, rfl⟩
/-- An untaken JEQ on R7 does not read R7. -/
theorem witness_UnreadRegisterInfluencesNothing : (Instr.jeq 7).WellFormed ∧
    (∃ t, exec (.jeq 7) State.reset = .next t) ∧ 7 < 8 ∧ Instr.jeq 7 ≠ .prn 7 ∧ (∀ b, Instr.jeq 7 ≠ .add 7 b) ∧
    (∀ a, Instr.jeq 7 ≠ .add a 7) ∧ (∀ b, Instr.jeq 7 ≠ .cmp 7 b) ∧ (∀ a, Instr.jeq 7 ≠ .cmp a 7) ∧ Instr.jeq 7 ≠ .jmp 7 ∧
    ((State.reset.fl.getLsbD 0 : Prop) → Instr.jeq 7 ≠ .jeq 7) ∧ (¬ State.reset.fl.getLsbD 0 → Instr.jeq 7 ≠ .jne 7) :=
  ⟨by decide, ⟨_, rfl⟩, by decide, by simp, by simp, by simp, by simp, by simp, by simp,
    fun h => absurd h (by decide), by simp⟩

/-- T22: `54 00` at 3 with `x[0] = 3`, an endless loop. -/
def selfJump : State := engine 3 (.replicate 8 3) 0 [0x54, 0x00]

theorem witness_SelfJumpLoopsForever : Config.opcodes.Valid ∧ selfJump.run = .running ∧
    BytesAt selfJump.mem selfJump.pc [Config.opcodes.jmp, 0x00] ∧ SelectsReg 0x00 0 ∧ selfJump.regs[0].toNat = selfJump.pc :=
  ⟨by decide, rfl, ⟨rfl, rfl, trivial⟩, rfl, rfl⟩
theorem witness_EndlessRunRepeatsState : selfJump.pc ≤ 256 ∧ ∀ k, ∃ t, stateAfter Config.opcodes selfJump k = some t := by
  refine ⟨by decide, fun k => ⟨selfJump, ?_⟩⟩
  induction k with
  | zero => rfl
  | succ k ih => exact ih
theorem witness_ConstructionLeaves : (255 : Nat) ≤ 255 ∧ 7 < 8 := by decide
theorem witness_LoaderContract : Memory.wf State.reset.mem ∧ (∀ c ∈ imageAt 254 [1, 2], c.1 ≤ 255) ∧
    ([(255, 1), (255, 2)] : List Host.Cell) = [(255, 1)] ++ (255, 2) :: [] ∧ (∀ c ∈ imageAt 254 [1, 2], c.1 ≠ 253) ∧
    (∃ c ∈ imageAt 255 [1, 2], 255 < c.1) ∧ 256 < (List.replicate 257 (1 : Byte)).length :=
  ⟨by decide, by decide, rfl, by decide, by decide, by rw [List.length_replicate]; decide⟩

end Sys2Proof.Tests
end

section
/-! PROOFS. The scope (00_scope.md): the default opcode bytes are a legal choice of the open parameters. -/

namespace Sys2Proof.Machine

/-- R78: bits 7:6 of each default opcode byte are its instruction's operand count. -/
theorem operandCount_default_byteOf (k : Mnemonic) : operandCount (Config.opcodes.byteOf k) = k.arity := by
  cases k <;> rfl

/-- R78: no two instructions share a default opcode byte. -/
theorem default_opcodes_nodup : (Mnemonic.all.map Config.opcodes.byteOf).Nodup := by decide

theorem default_opcodes_valid : Config.opcodes.Valid :=
  ⟨fun k _ => operandCount_default_byteOf k, default_opcodes_nodup⟩

theorem step_eq_stepWith_default (s : State) : step s = stepWith Config.opcodes s := rfl

/-- Settles O7: the eight operand counts and the distinctness of the bytes are finite facts, and `step` is by definition
`stepWith` of the default map. -/
theorem defaultOpcodesLegal : Obligations.DefaultOpcodesLegal :=
  ⟨default_opcodes_valid, step_eq_stepWith_default⟩

end Sys2Proof.Machine
end

section
/-! PROOFS. What an effect and a step change and what they leave, said once over `EffectOf` and `StepOf`; the converse of
`exec_cases`, by which an effect from one state is carried over to another; and two steps on the same bytes. -/

namespace Sys2Proof.Machine

section Effect

variable {s t : State} {i : Instr}

/-- The converse of `exec_cases`: `EffectOf` says exactly what `exec` does. -/
theorem exec_of_effect (h : EffectOf s i t) : exec i s = .next t := by
  cases h with
  | badIndex hmem hge hjeq hjne =>
    obtain ⟨u, hu⟩ := exec_isNext i s
    cases exec_cases hu with
    | badIndex => exact hu
    | jeqNot he => exact absurd (hjeq _ rfl) he
    | jneNot he => exact absurd he (hjne _ rfl)
    | hlt => cases hmem
    | _ => simp only [Instr.indices, List.mem_cons, List.not_mem_nil, or_false] at hmem; omega
  | ldi ha => simp only [exec, execLdi, setReg_of_lt s ha]; rfl
  | prn ha => simp only [exec, execPrn, getReg_of_lt s ha]; rfl
  | add ha hb =>
    simp only [exec, execAdd, getReg_of_lt s ha, getReg_of_lt s hb, bind, Except.bind, aluApply, setReg_of_lt s ha]
    rfl
  | cmp ha hb => simp only [exec, execCmp, getReg_of_lt s ha, getReg_of_lt s hb]; rfl
  | jmp ha => simp only [exec, execJmp, branch_true_of_lt s ha]; rfl
  | jeqTaken ha he => simp only [exec, execJeq, equalFlag_eq, he, branch_true_of_lt s ha]; rfl
  | jeqNot he => simp only [exec, execJeq, equalFlag_eq, he, branch_false]; rfl
  | jneTaken ha he => simp only [exec, execJne, equalFlag_eq, he, Bool.not_false, branch_true_of_lt s ha]; rfl
  | jneNot he => simp only [exec, execJne, equalFlag_eq, he, Bool.not_true, branch_false]; rfl
  | hlt => rfl

/-- A well-formed instruction holds no bad register index. -/
theorem not_wellFormed_of_bad_index {a : Nat} (hmem : a ∈ i.indices) (hge : 8 ≤ a) : ¬ i.WellFormed :=
  fun hw => Nat.not_lt.mpr hge (hw a hmem)

/-- R52: no effect writes memory. -/
theorem EffectOf.mem_eq (h : EffectOf s i t) : t.mem = s.mem := by cases h <;> rfl

/-- R34: only the effect of CMP writes FL, and it writes the comparator's result on its two registers. -/
theorem EffectOf.fl_eq_or (h : EffectOf s i t) :
    t.fl = s.fl ∨ ∃ a b, ∃ (_ : a < 8) (_ : b < 8), i = .cmp a b ∧ t.fl = compareBytes s.regs[a] s.regs[b] := by
  cases h with
  | cmp ha hb => exact .inr ⟨_, _, ha, hb, rfl, rfl⟩
  | _ => exact .inl rfl

/-- R26: only the effects of LDI and ADD write registers, and each writes its first operand. -/
theorem EffectOf.regs_eq_or (h : EffectOf s i t) :
    t.regs = s.regs ∨ ∃ a v, ∃ ha : a < 8, t.regs = s.regs.set a v ha ∧ ((∃ imm, i = .ldi a imm) ∨ ∃ b, i = .add a b) := by
  cases h with
  | ldi ha => exact .inr ⟨_, _, ha, rfl, .inl ⟨_, rfl⟩⟩
  | add ha => exact .inr ⟨_, _, ha, rfl, .inr ⟨_, rfl⟩⟩
  | _ => exact .inl rfl

/-- R39: only the effect of PRN emits, and it emits the register it names. -/
theorem EffectOf.out_eq_or (h : EffectOf s i t) :
    t.out = s.out ∨ ∃ a, ∃ _ : a < 8, i = .prn a ∧ t.out = s.out ++ [s.regs[a]] := by
  cases h with
  | prn ha => exact .inr ⟨_, ha, rfl, rfl⟩
  | _ => exact .inl rfl

/-- R37: the run state after the effect of a well-formed instruction. -/
theorem EffectOf.run_eq (h : EffectOf s i t) (hw : i.WellFormed) : t.run = if i = .hlt then .halted else s.run := by
  cases h with
  | badIndex hmem hge => exact absurd hw (not_wellFormed_of_bad_index hmem hge)
  | _ => rfl

/-- R31: an effect advances the program counter by the instruction's length, or the instruction is a jump and the program
counter becomes a byte. -/
theorem EffectOf.pc_eq_or (h : EffectOf s i t) (hw : i.WellFormed) :
    t.pc = s.pc + i.length ∨ i.mnemonic ∈ [.jmp, .jeq, .jne] ∧ ∃ v : Byte, t.pc = v.toNat := by
  cases h with
  | badIndex hmem hge => exact absurd hw (not_wellFormed_of_bad_index hmem hge)
  | jmp | jeqTaken | jneTaken => exact .inr ⟨by simp [Instr.mnemonic], _, rfl⟩
  | _ => exact .inl rfl

/-- R150: the program counter after JMP. -/
theorem EffectOf.pc_of_jmp {a : Nat} (h : EffectOf s (.jmp a) t) (ha : a < 8) : t.pc = s.regs[a].toNat := by
  cases h with
  | badIndex hmem hge => rw [List.mem_singleton.mp hmem] at hge; omega
  | jmp => rfl

/-- R151: the program counter after JEQ. -/
theorem EffectOf.pc_of_jeq {a : Nat} (h : EffectOf s (.jeq a) t) (ha : a < 8) :
    t.pc = if s.fl.getLsbD 0 then s.regs[a].toNat else s.pc + 2 := by
  cases h with
  | badIndex hmem hge => rw [List.mem_singleton.mp hmem] at hge; omega
  | jeqTaken _ he => exact (if_pos he).symm
  | jeqNot he => exact (if_neg he).symm

/-- R152: the program counter after JNE. -/
theorem EffectOf.pc_of_jne {a : Nat} (h : EffectOf s (.jne a) t) (ha : a < 8) :
    t.pc = if s.fl.getLsbD 0 then s.pc + 2 else s.regs[a].toNat := by
  cases h with
  | badIndex hmem hge => rw [List.mem_singleton.mp hmem] at hge; omega
  | jneTaken _ he => exact (if_neg he).symm
  | jneNot he => exact (if_pos he).symm

end Effect

section Step

variable {m : OpcodeParams} {s t : State}

theorem isEncodingOf_wellFormed {own : List Byte} {i : Instr} (h : IsEncodingOf m own i) : i.WellFormed := by
  obtain ⟨_, -, -, hi⟩ := isEncodingOf_inv h
  exact (assemble_some (m := m) hi).2.2

/-- A step that ends Faulted is fault entry, with one of the two kinds that steps raise (R25, R107, R176). -/
theorem step_faulted {k : FaultKind} {p : Nat} (h : stepWith m s = .next t) (hf : t.run = .faulted k p) :
    t = s.raise k ∧ p = s.pc ∧ (k = .addressFault ∨ k = .unknownInstruction) := by
  obtain ⟨hr, hs⟩ := stepWith_cases h
  cases hs with
  | address => cases hf; exact ⟨rfl, rfl, .inl rfl⟩
  | unknown => cases hf; exact ⟨rfl, rfl, .inr rfl⟩
  | effect _ _ _ _ hw he =>
    rw [(exec_cases he).run_eq hw, hr] at hf
    split at hf <;> cases hf

/-- A step is fault entry, or the effect of the well-formed instruction whose bytes stand at `pc`. -/
theorem step_raise_or_effect (h : stepWith m s = .next t) :
    (∃ k, t = s.raise k) ∨ ∃ bytes i, BytesAt s.mem s.pc bytes ∧ IsEncodingOf m bytes i ∧ i.WellFormed ∧
      EffectOf s i t := by
  obtain ⟨-, hs⟩ := stepWith_cases h
  cases hs with
  | address | unknown => exact .inl ⟨_, rfl⟩
  | effect hb _ _ henc hw he => exact .inr ⟨_, _, hb, henc, hw, exec_cases he⟩

/-- The bytes of an instruction begin with its opcode byte. -/
theorem read_opcode {bytes : List Byte} {i : Instr} (hb : BytesAt s.mem s.pc bytes) (henc : IsEncodingOf m bytes i) :
    s.mem.read s.pc = .ok (m.byteOf i.mnemonic) := by
  obtain ⟨_, rfl, -, -⟩ := isEncodingOf_inv henc
  exact hb.1

/-- The bytes of an instruction that stand in memory end below 256. -/
theorem encoding_end_le {bytes : List Byte} {i : Instr} (hb : BytesAt s.mem s.pc bytes) (henc : IsEncodingOf m bytes i) :
    s.pc + i.length ≤ 256 := by
  obtain ⟨_, rfl, hl, -⟩ := isEncodingOf_inv henc
  have hle := Memory.bytesAt_le hb (by simp)
  rwa [List.length_cons, hl] at hle

/-- Two running engines that fetch alike both raise the same fault, or both execute the same well-formed instruction. -/
theorem stepWith_of_fetch_eq {s' : State} (hrun : s'.run = s.run) (hfetch : s'.fetch = s.fetch)
    (h : stepWith m s = .next t) :
    (∃ k, t = s.raise k ∧ stepWith m s' = .next (s'.raise k)) ∨
    ∃ i, i.WellFormed ∧ EffectOf s i t ∧ stepWith m s' = exec i s' := by
  obtain ⟨hr, -⟩ := stepWith_cases h
  rw [stepWith_of_running m hr] at h
  rw [stepWith_of_running m (hrun.trans hr)]
  unfold cycle at h ⊢
  rw [hfetch]
  rcases hf : s.fetch with k | bytes <;> rw [hf] at h
  · cases h; exact .inl ⟨k, rfl, rfl⟩
  · rcases hd : decode m bytes with e | ⟨i, rest⟩ <;> simp only [hd] at h ⊢
    · cases h; exact .inl ⟨_, rfl, rfl⟩
    · exact .inr ⟨i, decode_wellFormed hd, exec_cases h, rfl⟩

/-- With a legal opcode map, an opcode byte at `pc` and the register operand byte after it make the step the effect of the
instruction they encode. -/
theorem stepWith_of_operand (hm : m.Valid) (hr : s.run = .running) {k : Mnemonic} {i : Instr} {o : Byte}
    (hop : s.mem.read s.pc = .ok (m.byteOf k)) (ho : s.mem.read (s.pc + 1) = .ok o) (hk : k.arity = 1)
    (hi : assemble k [o] = some i) : stepWith m s = exec i s :=
  stepWith_of_bytes hm hr (operands := [o]) ⟨hop, ho, trivial⟩ hi hk.symm

end Step
end Sys2Proof.Machine
end

section
/-! PROOFS. The state (10_state.md): the invariant, the register file, the frames, and what a step does to each field. -/

namespace Sys2Proof.Machine

-- The invariant (R29, R30, R38, R188)

section Invariant

variable {m : OpcodeParams} {s t : State}

theorem reportOk_of_ne_faulted (h : ∀ k p, s.run ≠ .faulted k p) : s.ReportOk := by
  unfold State.ReportOk
  split
  · trivial
  · trivial
  · exact absurd ‹_› (h _ _)

/-- Fault entry keeps the invariant when its report is a possible one. -/
theorem State.Inv.raise {k : FaultKind} (hs : s.Inv)
    (hk : (k = .unknownInstruction ∧ s.pc ≤ 255) ∨ (k = .addressFault ∧ 253 ≤ s.pc)) : (s.raise k).Inv :=
  ⟨hs.pc_le, hs.mem_wf, rfl, hk.imp_right fun ⟨hk, hpc⟩ => ⟨hk, hpc, hs.pc_le⟩⟩

/-- The effect of an instruction that lies below 256 keeps the invariant. -/
theorem EffectOf.inv {i : Instr} (h : EffectOf s i t) (hw : i.WellFormed) (hs : s.Inv) (hr : s.run = .running)
    (hle : s.pc + i.length ≤ 256) : t.Inv where
  pc_le := by
    rcases h.pc_eq_or hw with hpc | ⟨-, v, hpc⟩
    · omega
    · have := v.isLt
      omega
  mem_wf := h.mem_eq ▸ hs.mem_wf
  report_ok := reportOk_of_ne_faulted fun k p => by
    rw [h.run_eq hw, hr]
    split <;> simp

theorem stepWith_keeps_inv (hs : s.Inv) (h : stepWith m s = .next t) : t.Inv := by
  obtain ⟨hr, hstep⟩ := stepWith_cases h
  cases hstep with
  | address hc =>
    refine hs.raise (.inr ⟨rfl, ?_⟩)
    rcases hc with hc | ⟨opcode, -, hc⟩
    · omega
    · have := operandCount_lt opcode
      omega
  | unknown _ hle => exact hs.raise (.inl ⟨rfl, by omega⟩)
  | effect hb _ _ henc hw he => exact (exec_cases he).inv hw hs hr (encoding_end_le hb henc)

theorem construct_inv (p : ResetParams) : (State.construct p).Inv := ⟨Nat.zero_le _, Memory.wf_nil, trivial⟩

end Invariant

/-- Settles O45, along the cases of a step: an AddressFault lies at 253 or above since an opcode asks for at most three
operand bytes, and an effect moves the program counter to the end of its bytes or to a register's byte. -/
theorem stepKeepsInvariant : Obligations.StepKeepsInvariant :=
  ⟨fun _ _ _ hs h => stepWith_keeps_inv hs h, fun _ _ hs h => stepWith_keeps_inv hs h⟩

/-- Settles O46: the program counter is 0, memory is empty, and the run state carries no report. -/
theorem resetMeetsInvariant : Obligations.ResetMeetsInvariant := ⟨construct_inv _, construct_inv⟩

-- The register file and the reset values (R23, R24, R42)

/-- A register read after a register write: the new value at its index, the old answer at every other one. -/
theorem getReg_set (s : State) {i : Nat} (hi : i < 8) (v : Byte) (j : Nat) :
    ({ s with regs := s.regs.set i v hi } : State).getReg j = if j = i then .ok v else s.getReg j := by
  by_cases hj : j < 8
  · rw [getReg_of_lt _ hj, getReg_of_lt s hj, Vector.getElem_set, apply_ite Except.ok]
    simp only [eq_comm]
  · rw [getReg_of_ge _ (by omega), getReg_of_ge s (by omega), if_neg (by omega)]

/-- Settles O13: below 8 the two operations succeed, and a read after the write is `getReg_set`. -/
theorem registerFileContract : Obligations.RegisterFileContract := by
  intro s i v
  refine ⟨fun hi => ⟨getReg_of_ge s hi, setReg_of_ge s hi v⟩, fun hi => ?_⟩
  have hi : i < 8 := by omega
  refine ⟨⟨_, getReg_of_lt s hi⟩, _, setReg_of_lt s hi v, ?_, fun j hj => ?_, rfl, rfl, rfl, rfl, rfl⟩
  · rw [getReg_set, if_pos rfl]
  · rw [getReg_set, if_neg hj]

/-- Settles O55: the reset values are the model's defaults, and the byte 0x00 at 0 is no opcode and has no operands. -/
theorem resetDefaults : Obligations.ResetDefaults := by
  refine ⟨fun i hi => ?_, rfl, rfl⟩
  rw [getReg_of_lt _ hi]
  exact congrArg _ (Vector.getElem_replicate hi)

-- Frames of an effect (R26, R34, R37, R39)

/-- Settles O25: LDI and ADD write their first operand, which `r` is not. -/
theorem frameRegisters : Obligations.FrameRegisters := by
  intro i s t h r hr hldi hadd
  rcases (exec_cases h).regs_eq_or with heq | ⟨a, v, ha, heq, hi⟩
  · simp only [heq]
  · have har : a ≠ r := by
      rintro rfl
      rcases hi with ⟨imm, hi⟩ | ⟨b, hi⟩
      · exact hldi imm hi
      · exact hadd b hi
    simp only [heq, Vector.getElem_set_ne ha hr har]

/-- Settles O26: among the effects CMP's alone writes FL, and a faulting step is fault entry. -/
theorem frameFlags : Obligations.FrameFlags := by
  refine ⟨fun i s t h hcmp => ?_, fun m s t k p h hf => ?_⟩
  · rcases (exec_cases h).fl_eq_or with heq | ⟨a, b, _, _, hi, -⟩
    · exact heq
    · exact absurd hi (hcmp a b)
  · rw [(step_faulted h hf).1, raise_fl]

/-- Settles O28: among the effects PRN's alone emits, and among those of well-formed instructions HLT's alone changes the
run state. -/
theorem frameOutputAndRun : Obligations.FrameOutputAndRun := by
  intro i s t h
  have he := exec_cases h
  refine ⟨fun hprn => ?_, fun a ha hi => ?_, fun hhlt hw => ?_⟩
  · rcases he.out_eq_or with heq | ⟨a, _, hi, -⟩
    · exact heq
    · exact absurd hi (hprn a)
  · subst hi
    cases h.symm.trans (exec_of_effect (.prn ha))
    rfl
  · rw [he.run_eq hw, if_neg hhlt]

-- What a step does to each field

/-- Settles O41: a step that ends Faulted has one of the other two kinds. -/
theorem twoFaultsNeverRaised : Obligations.TwoFaultsNeverRaised := by
  intro m s t p h
  constructor <;> intro hf <;> obtain ⟨-, -, hk⟩ := step_faulted h hf <;> simp at hk

/-- A byte at `pc` that is HLT's makes the step HLT's effect. -/
theorem stepWith_of_hlt {m : OpcodeParams} (hm : m.Valid) {s : State} (hr : s.run = .running)
    (hop : s.mem.read s.pc = .ok 0x01) : stepWith m s = .next { s with run := .halted, pc := s.pc + 1 } :=
  (stepWith_of_bytes hm hr (k := .hlt) (operands := []) ⟨hop, trivial⟩ rfl rfl).trans (exec_of_effect .hlt)

/-- A step that does not fault is the effect of the instruction at `pc`, and its run state tells HLT from the rest. -/
theorem step_not_faulted {m : OpcodeParams} {s t : State} (h : stepWith m s = .next t)
    (hf : ∀ k p, t.run ≠ .faulted k p) :
    ∃ bytes i, BytesAt s.mem s.pc bytes ∧ IsEncodingOf m bytes i ∧ i.WellFormed ∧ EffectOf s i t ∧
      t.run = if i = .hlt then .halted else .running := by
  rcases step_raise_or_effect h with ⟨k, rfl⟩ | ⟨bytes, i, hb, henc, hw, he⟩
  · exact absurd rfl (hf k s.pc)
  · exact ⟨bytes, i, hb, henc, hw, he, (stepWith_cases h).1 ▸ he.run_eq hw⟩

/-- Settles O38: a step that does not fault is the effect of the instruction at `pc`, whose run state is Halted for HLT and
Running for the others. -/
theorem runStateTransitions : Obligations.RunStateTransitions := by
  intro m s t hm h
  have hr := (stepWith_cases h).1
  refine ⟨hr, ⟨fun hh => ?_, fun hop => ?_⟩, fun k p hf => (step_faulted h hf).2.1, fun hrun => ?_, ?_⟩
  · obtain ⟨bytes, i, hb, henc, -, -, hi⟩ := step_not_faulted h (by simp [hh])
    have hi : i = .hlt := by
      by_contra hne
      simp [hh, hne] at hi
    subst hi
    exact read_opcode hb henc
  · cases h.symm.trans (stepWith_of_hlt hm hr hop)
    rfl
  · obtain ⟨bytes, i, hb, henc, -, he, hi⟩ := step_not_faulted h (by simp [hrun])
    refine ⟨bytes, i, hb, henc, ?_, exec_of_effect he⟩
    rintro rfl
    simp [hrun] at hi
  · rintro ⟨bytes, i, -, henc, hne, he⟩
    rw [(exec_cases he).run_eq (isEncodingOf_wellFormed henc), if_neg hne, hr]

/-- Settles O42: a fault is fault entry; otherwise the opcode byte says which instruction's effect the step is. -/
theorem pcUpdateComplete : Obligations.PcUpdateComplete := by
  intro m s t opcode hm h hop
  have hr := (stepWith_cases h).1
  refine ⟨fun ⟨k, p, hf⟩ => ?_, fun hf => ?_⟩
  · rw [(step_faulted h hf).1, raise_pc]
  have advance : ∀ k : Mnemonic, k ∉ [.jmp, .jeq, .jne] → opcode = m.byteOf k → t.pc = s.pc + (k.arity + 1) := by
    rintro k hk rfl
    obtain ⟨bytes, i, hb, henc, hw, he, -⟩ := step_not_faulted h hf
    obtain rfl : k = i.mnemonic := hm.byteOf_inj (Except.ok.inj (hop.symm.trans (read_opcode hb henc)))
    rcases he.pc_eq_or hw with hpc | ⟨hjump, -⟩
    · exact hpc
    · exact absurd hjump hk
  refine ⟨?_, advance .prn (by decide), advance .hlt (by decide), fun o a ha ho hsel => ?_⟩
  · rintro (hc | hc | hc)
    exacts [advance .ldi (by decide) hc, advance .add (by decide) hc, advance .cmp (by decide) hc]
  · obtain rfl := (selectsReg_iff o a).mp hsel
    refine ⟨?_, ?_, ?_⟩ <;> rintro rfl
    · exact (exec_cases ((stepWith_of_operand hm hr (k := .jmp) hop ho rfl rfl).symm.trans h)).pc_of_jmp ha
    · exact (exec_cases ((stepWith_of_operand hm hr (k := .jeq) hop ho rfl rfl).symm.trans h)).pc_of_jeq ha
    · exact (exec_cases ((stepWith_of_operand hm hr (k := .jne) hop ho rfl rfl).symm.trans h)).pc_of_jne ha

/-- Settles O43: fault entry emits nothing, and an effect that emits is that of the PRN whose bytes stand at `pc`. -/
theorem outputGrowsByPrnAlone : Obligations.OutputGrowsByPrnAlone := by
  intro m s t _ h
  rcases step_raise_or_effect h with ⟨k, rfl⟩ | ⟨bytes, i, hb, henc, -, he⟩
  · exact .inl rfl
  rcases he.out_eq_or with heq | ⟨a, ha, rfl, heq⟩
  · exact .inl heq
  obtain ⟨o, rfl, hsel⟩ := henc
  obtain ⟨hop, ho, -⟩ := hb
  exact .inr ⟨o, a, ha, hop, ho, hsel, heq⟩

/-- Settles O44: fault entry leaves FL, and an effect that writes FL is that of the CMP at `pc` and writes one of the
comparator's three results. -/
theorem flagsOneHotAfterCompare : Obligations.FlagsOneHotAfterCompare := by
  intro m s t _ h
  rcases step_raise_or_effect h with ⟨k, rfl⟩ | ⟨bytes, i, hb, henc, -, he⟩
  · exact .inl rfl
  rcases he.fl_eq_or with heq | ⟨a, b, _, _, rfl, heq⟩
  · exact .inl heq
  refine .inr ⟨read_opcode hb henc, ?_⟩
  simp only [State.equalFlag, State.greaterFlag, State.lessFlag]
  rcases compareBytes_cases s.regs[a] s.regs[b] with hc | hc | hc <;> rw [heq, hc] <;> decide

end Sys2Proof.Machine
end

section
/-! PROOFS. What cannot influence a step (R26, R35, R39): the same effect from a state that differs in FL, in the output or
in one register. -/

namespace Sys2Proof

/-- The registers an instruction reads when `FL[0]` is `equal` (R26's list; JEQ and JNE read only when taken). -/
def Instr.readRegs (equal : Bool) : Instr → List Nat
  | .ldi _ _ => []
  | .prn a => [a]
  | .add a b => [a, b]
  | .cmp a b => [a, b]
  | .jmp a => [a]
  | .jeq a => if equal then [a] else []
  | .jne a => if equal then [] else [a]
  | .hlt => []

end Sys2Proof

namespace Sys2Proof.Machine

section Carry

variable {s t : State} {i : Instr}

/-- R35: the effect from a state with another FL of the same bit 0: CMP's leads to the same state, and the others' leaves FL
as it was in each. -/
theorem EffectOf.with_fl (h : EffectOf s i t) {f : Byte} (hf : f.getLsbD 0 = s.fl.getLsbD 0) :
    EffectOf { s with fl := f } i t ∨ (t.fl = s.fl ∧ EffectOf { s with fl := f } i { t with fl := f }) := by
  cases h with
  | badIndex hmem hge hjeq hjne =>
    exact .inr ⟨rfl, .badIndex hmem hge (fun c hc => hf ▸ hjeq c hc) (fun c hc => hf ▸ hjne c hc)⟩
  | ldi ha => exact .inr ⟨rfl, .ldi ha⟩
  | prn ha => exact .inr ⟨rfl, .prn ha⟩
  | add ha hb => exact .inr ⟨rfl, .add ha hb⟩
  | cmp ha hb => exact .inl (.cmp ha hb)
  | jmp ha => exact .inr ⟨rfl, .jmp ha⟩
  | jeqTaken ha he => exact .inr ⟨rfl, .jeqTaken ha (hf ▸ he)⟩
  | jeqNot he => exact .inr ⟨rfl, .jeqNot (hf ▸ he)⟩
  | jneTaken ha he => exact .inr ⟨rfl, .jneTaken ha (hf ▸ he)⟩
  | jneNot he => exact .inr ⟨rfl, .jneNot (hf ▸ he)⟩
  | hlt => exact .inr ⟨rfl, .hlt⟩

/-- R39: the effect from a state with another output: the same effect, which emits the same bytes. -/
theorem EffectOf.with_out (h : EffectOf s i t) (o : List Byte) :
    (t.out = s.out ∧ EffectOf { s with out := o } i { t with out := o }) ∨
    ∃ v, t.out = s.out ++ [v] ∧ EffectOf { s with out := o } i { t with out := o ++ [v] } := by
  cases h with
  | badIndex hmem hge hjeq hjne => exact .inl ⟨rfl, .badIndex hmem hge hjeq hjne⟩
  | ldi ha => exact .inl ⟨rfl, .ldi ha⟩
  | prn ha => exact .inr ⟨_, rfl, .prn ha⟩
  | add ha hb => exact .inl ⟨rfl, .add ha hb⟩
  | cmp ha hb => exact .inl ⟨rfl, .cmp ha hb⟩
  | jmp ha => exact .inl ⟨rfl, .jmp ha⟩
  | jeqTaken ha he => exact .inl ⟨rfl, .jeqTaken ha he⟩
  | jeqNot he => exact .inl ⟨rfl, .jeqNot he⟩
  | jneTaken ha he => exact .inl ⟨rfl, .jneTaken ha he⟩
  | jneNot he => exact .inl ⟨rfl, .jneNot he⟩
  | hlt => exact .inl ⟨rfl, .hlt⟩

/-- R26: the effect from a state with another byte in a register that the instruction does not read: the byte stays there
unless LDI overwrites it, and nothing else differs. -/
theorem EffectOf.with_reg (h : EffectOf s i t) (hw : i.WellFormed) {r : Nat} (hr : r < 8) (v : Byte)
    (hread : r ∉ i.readRegs (s.fl.getLsbD 0)) :
    (∃ imm, i = .ldi r imm ∧ EffectOf { s with regs := s.regs.set r v hr } i t) ∨
    ((∀ imm, i ≠ .ldi r imm) ∧
      EffectOf { s with regs := s.regs.set r v hr } i { t with regs := t.regs.set r v hr }) := by
  have kept : ∀ {a : Nat} (ha : a < 8), r ≠ a → (s.regs.set r v hr)[a] = s.regs[a] := Vector.getElem_set_ne hr
  cases h with
  | badIndex hmem hge => exact absurd hw (not_wellFormed_of_bad_index hmem hge)
  | @ldi a imm ha =>
    have h' := EffectOf.ldi (s := { s with regs := s.regs.set r v hr }) (imm := imm) ha
    by_cases har : r = a
    · subst har
      rw [Vector.set_set] at h'
      exact .inl ⟨imm, rfl, h'⟩
    · rw [Vector.set_comm _ _ har] at h'
      exact .inr ⟨by simpa using Ne.symm har, h'⟩
  | @prn a ha =>
    have h' := EffectOf.prn (s := { s with regs := s.regs.set r v hr }) ha
    rw [kept ha (by simpa [Instr.readRegs] using hread)] at h'
    exact .inr ⟨by simp, h'⟩
  | @add a b ha hb =>
    obtain ⟨har, hbr⟩ : r ≠ a ∧ r ≠ b := by simpa [Instr.readRegs] using hread
    have h' := EffectOf.add (s := { s with regs := s.regs.set r v hr }) ha hb
    rw [kept ha har, kept hb hbr, Vector.set_comm _ _ har] at h'
    exact .inr ⟨by simp, h'⟩
  | @cmp a b ha hb =>
    obtain ⟨har, hbr⟩ : r ≠ a ∧ r ≠ b := by simpa [Instr.readRegs] using hread
    have h' := EffectOf.cmp (s := { s with regs := s.regs.set r v hr }) ha hb
    rw [kept ha har, kept hb hbr] at h'
    exact .inr ⟨by simp, h'⟩
  | @jmp a ha =>
    have h' := EffectOf.jmp (s := { s with regs := s.regs.set r v hr }) ha
    rw [kept ha (by simpa [Instr.readRegs] using hread)] at h'
    exact .inr ⟨by simp, h'⟩
  | @jeqTaken a ha he =>
    have h' := EffectOf.jeqTaken (s := { s with regs := s.regs.set r v hr }) ha he
    simp only [Instr.readRegs, if_pos he, List.mem_singleton] at hread
    rw [kept ha hread] at h'
    exact .inr ⟨by simp, h'⟩
  | jeqNot he => exact .inr ⟨by simp, .jeqNot he⟩
  | @jneTaken a ha he =>
    have h' := EffectOf.jneTaken (s := { s with regs := s.regs.set r v hr }) ha he
    simp only [Instr.readRegs, if_neg he, List.mem_singleton] at hread
    rw [kept ha hread] at h'
    exact .inr ⟨by simp, h'⟩
  | jneNot he => exact .inr ⟨by simp, .jneNot he⟩
  | hlt => exact .inr ⟨by simp, .hlt⟩

end Carry

/-- Settles O48: the two engines fetch the same bytes, and `EffectOf.with_fl` carries the effect over. -/
theorem onlyEqualBitInfluences : Obligations.OnlyEqualBitInfluences := by
  intro m s t f hf h
  rcases stepWith_of_fetch_eq (s := s) (s' := { s with fl := f }) rfl (fetch_congr rfl rfl) h with
    ⟨k, rfl, h'⟩ | ⟨i, -, he, h'⟩
  · exact ⟨_, h', rfl, rfl, rfl, rfl, rfl, .inr ⟨rfl, rfl⟩⟩
  · rcases he.with_fl hf with he' | ⟨hfl, he'⟩
    · exact ⟨_, h'.trans (exec_of_effect he'), rfl, rfl, rfl, rfl, rfl, .inl rfl⟩
    · exact ⟨_, h'.trans (exec_of_effect he'), rfl, rfl, rfl, rfl, rfl, .inr ⟨hfl, rfl⟩⟩

theorem State.SameEngine.eq_with_out {s s' : State} (h : s.SameEngine s') : s' = { s with out := s'.out } := by
  obtain ⟨hregs, hpc, hfl, hrun, hmem⟩ := h
  rw [hregs, hpc, hfl, hrun, hmem]

theorem sameEngine_with_out (s : State) (o : List Byte) : s.SameEngine { s with out := o } :=
  ⟨rfl, rfl, rfl, rfl, rfl⟩

/-- Settles O49: the two engines fetch the same bytes, and `EffectOf.with_out` carries the effect over. -/
theorem outputInfluencesNothing : Obligations.OutputInfluencesNothing := by
  intro m s s' t hsame h
  obtain ⟨o, rfl⟩ : ∃ o, s' = { s with out := o } := ⟨_, hsame.eq_with_out⟩
  rcases stepWith_of_fetch_eq (s := s) (s' := { s with out := o }) rfl (fetch_congr rfl rfl) h with
    ⟨k, rfl, h'⟩ | ⟨i, -, he, h'⟩
  · exact ⟨_, [], h', sameEngine_with_out _ o, by simp, by simp⟩
  · rcases he.with_out o with ⟨hout, he'⟩ | ⟨v, hout, he'⟩
    · exact ⟨_, [], h'.trans (exec_of_effect he'), sameEngine_with_out _ _, by simp [hout], by simp⟩
    · exact ⟨_, [v], h'.trans (exec_of_effect he'), sameEngine_with_out _ _, hout, rfl⟩

/-- Settles O51: the hypotheses say that `r` is none of the registers the instruction reads, and `EffectOf.with_reg` carries
the effect over. -/
theorem unreadRegisterInfluencesNothing : Obligations.UnreadRegisterInfluencesNothing := by
  intro i s t r v hr hw h hprn hadd₁ hadd₂ hcmp₁ hcmp₂ hjmp hjeq hjne
  have hread : r ∉ i.readRegs (s.fl.getLsbD 0) := by
    intro hmem
    cases i with
    | ldi | hlt => cases hmem
    | prn a => exact hprn (by rw [List.mem_singleton.mp hmem])
    | add a b => rcases List.mem_pair.mp hmem with rfl | rfl; exacts [hadd₁ b rfl, hadd₂ a rfl]
    | cmp a b => rcases List.mem_pair.mp hmem with rfl | rfl; exacts [hcmp₁ b rfl, hcmp₂ a rfl]
    | jmp a => exact hjmp (by rw [List.mem_singleton.mp hmem])
    | jeq a =>
      obtain ⟨he, rfl⟩ : s.fl.getLsbD 0 ∧ r = a := by simpa [Instr.readRegs] using hmem
      exact hjeq he rfl
    | jne a =>
      obtain ⟨he, rfl⟩ : ¬ s.fl.getLsbD 0 ∧ r = a := by simpa [Instr.readRegs] using hmem
      exact hjne he rfl
  rcases (exec_cases h).with_reg hw hr v hread with ⟨imm, rfl, he⟩ | ⟨hldi, he⟩
  · refine ⟨t, exec_of_effect he, rfl, rfl, rfl, rfl, rfl, fun _ _ _ => rfl, fun hne => absurd rfl (hne imm), ?_⟩
    rintro imm' ⟨⟩
    cases h.symm.trans (exec_of_effect (.ldi hr))
    exact Vector.getElem_set_self hr
  · exact ⟨_, exec_of_effect he, rfl, rfl, rfl, rfl, rfl, fun q hq hqr => Vector.getElem_set_ne hr hq (Ne.symm hqr),
      fun _ => Vector.getElem_set_self hr, fun imm hi => absurd hi (hldi imm)⟩

end Sys2Proof.Machine
end

section
/-! PROOFS. Memory (20_memory.md): the memory block's contract, the frame of memory, and the memory a step depends on. -/

namespace Sys2Proof.Machine

-- The memory block (R51)

/-- A read after a store inside memory: the new value at its address, the old answer at every other one. -/
theorem Memory.read_store {mem : Memory} (hwf : mem.wf) {a : Nat} (ha : a < 256) (v : Byte) (b : Nat) :
    (mem.store a v).read b = if b = a then .ok v else mem.read b := by
  by_cases hb : b < 256
  · rw [read_of_lt _ hb, read_of_lt mem hb, lookup_store hwf.1, apply_ite Except.ok]
  · rw [read_of_ge _ (by omega), read_of_ge mem (by omega), if_neg (by omega)]

/-- Settles O12: below 256 the two operations succeed, and a read after the write is `Memory.read_store`. -/
theorem memoryContract : Obligations.MemoryContract := by
  intro mem a v hwf
  refine ⟨fun ha => ⟨Memory.read_of_ge mem ha, Memory.write_of_ge mem ha v⟩, fun ha => ?_⟩
  have ha : a < 256 := by omega
  refine ⟨⟨_, Memory.read_of_lt mem ha⟩, _, Memory.write_of_lt mem ha v, Memory.wf_store hwf ha v, ?_, fun b hb => ?_⟩
  · rw [Memory.read_store hwf ha, if_pos rfl]
  · rw [Memory.read_store hwf ha, if_neg hb]

-- The frame of memory (R52, R60, R63)

/-- A step leaves memory as it is: fault entry does, and so does every effect. -/
theorem step_mem_eq {m : OpcodeParams} {s t : State} (h : stepWith m s = .next t) : t.mem = s.mem := by
  rcases step_raise_or_effect h with ⟨k, rfl⟩ | ⟨_, _, -, -, -, he⟩
  · exact raise_mem s k
  · exact he.mem_eq

/-- Settles O27: no effect and no step writes memory, so every read answers as before. -/
theorem frameMemory : Obligations.FrameMemory :=
  ⟨fun _ _ _ h _ => by rw [(exec_cases h).mem_eq], fun _ _ _ h _ => by rw [step_mem_eq h]⟩

-- The memory a step depends on (R52, R102, R103)

/-- Reads of `n` bytes look at those `n` addresses alone. -/
theorem Memory.readFrom_congr {mem mem' : Memory} {n a : Nat}
    (h : ∀ k < n, mem'.read (a + k) = mem.read (a + k)) : mem'.readFrom a n = mem.readFrom a n := by
  induction n generalizing a with
  | zero => rfl
  | succ n ih =>
    have hhead : mem'.read a = mem.read a := h 0 (by omega)
    have htail : mem'.readFrom (a + 1) n = mem.readFrom (a + 1) n := ih fun k hk => by
      rw [Nat.add_assoc, Nat.add_comm 1 k]
      exact h (k + 1) (by omega)
    simp only [Memory.readFrom, hhead, htail]

/-- R102, R103: a fetch looks at `pc` and at the operand bytes of the opcode there alone. -/
theorem fetch_with_mem {s : State} {mem' : Memory} (hpc : mem'.read s.pc = s.mem.read s.pc)
    (hops : ∀ opcode, s.mem.read s.pc = .ok opcode → ∀ k, 1 ≤ k → k ≤ operandCount opcode →
      mem'.read (s.pc + k) = s.mem.read (s.pc + k)) : ({ s with mem := mem' } : State).fetch = s.fetch := by
  unfold State.fetch
  simp only [hpc]
  rcases hop : s.mem.read s.pc with k | opcode
  · rfl
  · have hread : mem'.readFrom (s.pc + 1) (operandCount opcode) = s.mem.readFrom (s.pc + 1) (operandCount opcode) :=
      Memory.readFrom_congr fun k hk => by
        rw [Nat.add_assoc]
        exact hops opcode hop (1 + k) (by omega) (by omega)
    simp only [bind, Except.bind, hread]

/-- R52: the effect from a state with another memory: the same effect, which leaves that memory as it is. -/
theorem EffectOf.with_mem {s t : State} {i : Instr} (h : EffectOf s i t) (mem' : Memory) :
    EffectOf { s with mem := mem' } i { t with mem := mem' } := by
  cases h with
  | badIndex hmem hge hjeq hjne => exact .badIndex hmem hge hjeq hjne
  | ldi ha => exact .ldi ha
  | prn ha => exact .prn ha
  | add ha hb => exact .add ha hb
  | cmp ha hb => exact .cmp ha hb
  | jmp ha => exact .jmp ha
  | jeqTaken ha he => exact .jeqTaken ha he
  | jeqNot he => exact .jeqNot he
  | jneTaken ha he => exact .jneTaken ha he
  | jneNot he => exact .jneNot he
  | hlt => exact .hlt

/-- Settles O50: the two engines fetch the same bytes, and `EffectOf.with_mem` carries the effect over. -/
theorem stepReadsOnlyItsOwnBytes : Obligations.StepReadsOnlyItsOwnBytes := by
  intro m s t mem' h hpc hops
  have hfetch : ({ s with mem := mem' } : State).fetch = s.fetch :=
    fetch_with_mem hpc fun opcode hop k h1 hk => hops opcode hop k h1 (operandCount_eq_topBits opcode ▸ hk)
  rcases stepWith_of_fetch_eq (s := s) (s' := { s with mem := mem' }) rfl hfetch h with ⟨k, rfl, h'⟩ | ⟨i, -, he, h'⟩
  · exact h'
  · exact h'.trans (exec_of_effect (he.with_mem mem'))

end Sys2Proof.Machine
end

section
/-! PROOFS. The encoding (30_encoding.md): the decoder against the byte patterns of R72 and against the encoder, what it
rejects and how, and the decoder as a function of one byte. -/

namespace Sys2Proof.Machine

section Decoder

variable {m : OpcodeParams}

-- The decoder of one byte (R71, R80, R83)

/-- The identity of a byte, under a legal map, is the one instruction with that opcode byte. -/
theorem identify_eq_some_iff (hm : m.Valid) {opcode : Byte} {k : Mnemonic} :
    identify m opcode = some k ↔ m.byteOf k = opcode :=
  ⟨byteOf_of_identify, fun h => h ▸ identify_byteOf hm k⟩

theorem identify_eq_none_iff (hm : m.Valid) (opcode : Byte) : identify m opcode = none ↔ ¬ IsOpcode m opcode := by
  simp only [isOpcode_iff, Option.eq_none_iff_forall_ne_some, ne_eq, identify_eq_some_iff hm, not_exists]

theorem operandCount_of_identify (hm : m.Valid) {opcode : Byte} {k : Mnemonic} (h : identify m opcode = some k) :
    operandCount opcode = k.arity :=
  byteOf_of_identify h ▸ hm.count k

theorem arity_le_two (k : Mnemonic) : k.arity ≤ 2 := by cases k <;> decide

/-- No instruction has three operands, so a byte that asks for three operand bytes has no identity. -/
theorem identify_eq_none_of_advanceWidth (hm : m.Valid) {opcode : Byte} (h : advanceWidth opcode = 4) :
    identify m opcode = none := by
  rcases hk : identify m opcode with _ | k
  · rfl
  · have hcount := operandCount_of_identify hm hk
    have hle := arity_le_two k
    rw [advanceWidth] at h
    omega

/-- The byte values with an identity are, in some order, the eight opcode bytes. -/
theorem known_bytes_perm (hm : m.Valid) :
    ((List.finRange 256).filter fun v => (identify m (BitVec.ofFin v)).isSome).Perm
      ((Mnemonic.all.map m.byteOf).map BitVec.toFin) := by
  have hinj : Function.Injective (BitVec.toFin : Byte → Fin 256) := fun _ _ => BitVec.eq_of_toFin_eq
  refine (List.perm_ext_iff_of_nodup ((List.nodup_finRange 256).filter _) (hm.2.map hinj)).mpr fun v => ?_
  simp [Option.isSome_iff_exists, identify_eq_some_iff hm, ← BitVec.toFin_inj]

-- The decoder and the byte patterns (R72, R84)

/-- Whatever bits a pattern leaves open, and whatever bytes follow it, it decodes to its instruction. -/
theorem decode_of_isEncodingOf (hm : m.Valid) {own : List Byte} {i : Instr} (h : IsEncodingOf m own i)
    (rest : List Byte) : decode m (own ++ rest) = .ok (i, rest) := by
  obtain ⟨operands, rfl, hlen, hi⟩ := isEncodingOf_inv h
  have hcount : operandCount (m.byteOf i.mnemonic) = operands.length := (hm.count _).trans hlen.symm
  simp [decode, hcount, identify_byteOf hm, hi]

/-- Bytes that decode to an instruction are a pattern of it and the bytes left over, whatever the opcode map. -/
theorem isEncodingOf_of_decode {bytes rest : List Byte} {i : Instr} (h : decode m bytes = .ok (i, rest)) :
    ∃ own, bytes = own ++ rest ∧ IsEncodingOf m own i := by
  cases bytes with
  | nil => cases h
  | cons opcode tail =>
    rcases decode_cons_cases m opcode tail with ⟨-, h'⟩ | ⟨-, -, h'⟩ | ⟨-, k, j, hk, hj, h'⟩ <;> cases h.symm.trans h'
    refine ⟨opcode :: tail.take (operandCount opcode), by simp, ?_⟩
    exact byteOf_of_identify hk ▸ (assemble_some (m := m) hj).2.1

/-- The encoder writes a pattern of its instruction: the one with canonical register operand bytes. -/
theorem isEncodingOf_encode {i : Instr} (hw : i.WellFormed) : IsEncodingOf m (encode m i) i := by
  have sel : ∀ a ∈ i.indices, SelectsReg (BitVec.ofNat 8 a) a := fun a ha =>
    (selectsReg_iff _ a).mpr (regOperand_ofNat (hw a ha))
  cases i with
  | hlt => rfl
  | add a b | cmp a b => exact ⟨_, _, rfl, sel a (by simp [Instr.indices]), sel b (by simp [Instr.indices])⟩
  | ldi a | prn a | jmp a | jeq a | jne a => exact ⟨_, rfl, sel a (by simp [Instr.indices])⟩

-- What the decoder rejects (R80, R82)

theorem decode_missingOperand_iff (opcode : Byte) (rest : List Byte) :
    decode m (opcode :: rest) = .error (.missingOperand opcode) ↔ rest.length < operandCount opcode := by
  rcases decode_cons_cases m opcode rest with ⟨hl, h⟩ | ⟨hl, -, h⟩ | ⟨hl, _, _, -, -, h⟩ <;> simp [h, hl]

theorem decode_unknownOpcode_iff (hm : m.Valid) (opcode : Byte) (rest : List Byte) :
    decode m (opcode :: rest) = .error (.unknownOpcode opcode) ↔
      operandCount opcode ≤ rest.length ∧ ¬ IsOpcode m opcode := by
  rcases decode_cons_cases m opcode rest with ⟨hl, h⟩ | ⟨hl, hn, h⟩ | ⟨hl, k, _, hk, -, h⟩
  · simp [h, Nat.not_le.mpr hl]
  · have hop : ¬ IsOpcode m opcode := (decode_fetched_unknown_iff hm (List.length_take_of_le hl)).mp hn
    simp [h, hl, hop]
  · have hop : IsOpcode m opcode := (isOpcode_iff m opcode).mpr ⟨k, byteOf_of_identify hk⟩
    simp [h, hop]

end Decoder

/-- Settles O1: the encoding is a pattern of the instruction. -/
theorem decodeEncodeRoundTrip : Obligations.DecodeEncodeRoundTrip :=
  fun _ hm _ hw rest => decode_of_isEncodingOf hm (isEncodingOf_encode hw) rest

/-- Settles O2: what the decoder answers is a pattern by the inversion of `decode`, and a pattern decodes since a legal map
finds its identity again and asks for as many operand bytes as it has. -/
theorem decodeIffPattern : Obligations.DecodeIffPattern := by
  intro m hm bytes i rest
  refine ⟨isEncodingOf_of_decode, ?_⟩
  rintro ⟨own, rfl, h⟩
  exact decode_of_isEncodingOf hm h rest

/-- Settles O3: the operand count is bits 7:6 of the opcode, and the three answers of `decode` exclude each other. -/
theorem decodeRejectsByName : Obligations.DecodeRejectsByName := by
  intro m hm
  refine ⟨rfl, fun opcode rest => ?_⟩
  rw [← operandCount_eq_topBits]
  exact ⟨decode_missingOperand_iff opcode rest, decode_unknownOpcode_iff hm opcode rest⟩

/-- Settles O5: the width is one more than a two-bit count, and the identity is `identify_eq_some_iff`. -/
theorem decoderOfOneByte : Obligations.DecoderOfOneByte := by
  intro m hm opcode
  have hlt := operandCount_lt opcode
  have hwidth : advanceWidth opcode = operandCount opcode + 1 := rfl
  exact ⟨operandCount_eq_topBits opcode, operandCount_eq_topBits opcode ▸ hwidth, by omega, by omega,
    identify_eq_none_of_advanceWidth hm, fun _ => identify_eq_some_iff hm, fun _ => operandCount_of_identify hm,
    identify_eq_none_iff hm opcode⟩

/-- Settles O6: of the 256 byte values the eight opcode bytes have an identity, and the others have none. -/
theorem unknownOpcodesAre248 : Obligations.UnknownOpcodesAre248 := by
  intro m hm
  have hknown := (known_bytes_perm hm).length_eq
  have hsplit := List.length_eq_length_filter_add (α := Fin (2 ^ 8)) (l := List.finRange 256)
    fun v => (identify m (BitVec.ofFin v)).isSome
  simp only [Option.not_isSome] at hsplit
  simp only [List.length_map, Mnemonic.all, List.length_cons, List.length_nil, List.length_finRange] at hknown hsplit
  omega

/-- Settles O4: each word is a pattern of its instruction under the default map, PRN's with its ignored bits set. -/
theorem decodeSpecWords : Obligations.DecodeSpecWords := by
  have dec {own : List Byte} {i : Instr} (h : IsEncodingOf Config.opcodes own i) :
      decode Config.opcodes own = .ok (i, []) := by
    simpa using decode_of_isEncodingOf default_opcodes_valid h []
  exact ⟨dec ⟨_, rfl, rfl⟩, dec ⟨_, rfl, rfl⟩, dec ⟨_, _, rfl, rfl, rfl⟩, dec ⟨_, _, rfl, rfl, rfl⟩,
    dec ⟨_, rfl, rfl⟩, dec ⟨_, rfl, rfl⟩, dec ⟨_, rfl, rfl⟩, dec rfl⟩

end Sys2Proof.Machine
end

section
/-! PROOFS. The engine's cycle (40_engine_cycle.md): when a step is taken, what it runs and what a fault leaves; runs, their
self-loop and the pigeonhole on the states of the engine. -/

namespace Sys2Proof.Machine

-- One step (R100 to R107, R111, R176)

section Step

variable {m : OpcodeParams} {s t : State}

/-- Settles O22: `exec` always leads to a next state, and `EffectOf.run_eq` says its run state. -/
theorem wellFormedCompletes : Obligations.WellFormedCompletes := by
  intro i s hw
  obtain ⟨t, h⟩ := exec_isNext i s
  have hrun : t.run = if i = .hlt then .halted else s.run := (exec_cases h).run_eq hw
  exact ⟨t, h, fun hne => hrun.trans (if_neg hne), fun heq => hrun.trans (if_pos heq)⟩

theorem stepWith_isNext_iff : (∃ t, stepWith m s = .next t) ↔ s.run = .running :=
  ⟨fun ⟨_, h⟩ => (stepWith_cases h).1, stepWith_isNext m⟩

theorem stepWith_of_halted (m : OpcodeParams) (h : s.run = .halted) : stepWith m s = .fault .engineHalted := by
  simp only [stepWith, h]

theorem stepWith_of_faulted (m : OpcodeParams) {k : FaultKind} {p : Nat} (h : s.run = .faulted k p) :
    stepWith m s = .fault (.engineFaulted k p) := by
  simp only [stepWith, h]

/-- Settles O37: a running engine has a next state, and a stopped one answers the fault of its run state. -/
theorem stepExactlyWhenRunning : Obligations.StepExactlyWhenRunning :=
  fun m _ => ⟨stepWith_isNext_iff, stepWith_of_halted m, fun _ _ => stepWith_of_faulted m⟩

@[simp] theorem report_raise (s : State) (k : FaultKind) : (s.raise k).report = some (k, s.pc) := rfl

/-- Settles O40: a step that ends Faulted is fault entry. -/
theorem faultChangesOnlyRun : Obligations.FaultChangesOnlyRun := by
  intro m s t k p h hf
  obtain ⟨rfl, -, -⟩ := step_faulted h hf
  exact ⟨rfl, report_raise s k⟩

/-- Bytes that decode with nothing left over are an opcode byte and as many bytes as it asks for. -/
theorem operands_length_of_decode {bytes : List Byte} {i : Instr} (h : decode m bytes = .ok (i, [])) :
    ∃ opcode operands, bytes = opcode :: operands ∧ operands.length = operandCount opcode := by
  cases bytes with
  | nil => cases h
  | cons opcode operands =>
    refine ⟨opcode, operands, rfl, ?_⟩
    rcases decode_cons_cases m opcode operands with ⟨-, h'⟩ | ⟨-, -, h'⟩ | ⟨hle, _, _, -, -, h'⟩ <;>
      have heq := h.symm.trans h'
    · cases heq
    · cases heq
    · have hge := List.drop_eq_nil_iff.mp (congrArg Prod.snd (Except.ok.inj heq)).symm
      exact Nat.le_antisymm hge hle

/-- Whatever the opcode map, the step is the effect of the instruction that the bytes at `pc` decode to. -/
theorem stepWith_of_decode {bytes : List Byte} {i : Instr} (hr : s.run = .running) (hb : BytesAt s.mem s.pc bytes)
    (hd : decode m bytes = .ok (i, [])) : stepWith m s = exec i s := by
  obtain ⟨opcode, operands, rfl, hl⟩ := operands_length_of_decode hd
  have hf : s.fetch = .ok (opcode :: operands) := (fetch_ok_iff s _).mpr ⟨_, _, rfl, hl, hb⟩
  simp only [stepWith_of_running m hr, cycle, hf, hd]

/-- Settles O29: the bytes that decode are exactly the bytes that the step fetches. -/
theorem stepRunsDecodedInstruction : Obligations.StepRunsDecodedInstruction :=
  ⟨fun _ _ _ _ => stepWith_of_decode, fun _ _ _ => stepWith_of_decode⟩

/-- R29: a step keeps the program counter in 0 to 256, whatever the form of memory. -/
theorem step_pc_le (h : stepWith m s = .next t) (hs : s.pc ≤ 256) : t.pc ≤ 256 := by
  rcases step_raise_or_effect h with ⟨k, rfl⟩ | ⟨_, i, hb, henc, hw, he⟩
  · exact hs
  · rcases he.pc_eq_or hw with hpc | ⟨-, v, hpc⟩
    · exact hpc ▸ encoding_end_le hb henc
    · exact hpc ▸ v.isLt.le

end Step

-- Runs (R108, R109, R163)

section Run

variable {m : OpcodeParams} {s t : State}

/-- What holds at the start of a run and is kept by every step holds in every state of the run. -/
theorem Reaches.invariant {P : State → Prop} (hstep : ∀ {t u}, P t → stepWith m t = .next u → P u)
    (h : Reaches m s t) (hs : P s) : P t := by
  induction h with
  | here => exact hs
  | step _ hu ih => exact hstep ih hu

theorem nextState?_eq_some {o : Host.Outcome State Fault Refusal} : nextState? o = some t ↔ o = .next t := by
  cases o <;> simp [nextState?]

/-- One more step of a run, taken at its end. -/
theorem stateAfter_succ (m : OpcodeParams) (s : State) (k : Nat) :
    stateAfter m s (k + 1) = (stateAfter m s k).bind fun t => nextState? (stepWith m t) := by
  induction k generalizing s with
  | zero => simp only [stateAfter, Option.bind_some, Option.bind_fun_some]
  | succ k ih =>
    calc stateAfter m s (k + 1 + 1)
        = (nextState? (stepWith m s)).bind fun t => stateAfter m t (k + 1) := rfl
      _ = (nextState? (stepWith m s)).bind fun t => (stateAfter m t k).bind fun u => nextState? (stepWith m u) := by
        simp only [ih]
      _ = (stateAfter m s (k + 1)).bind fun u => nextState? (stepWith m u) := (Option.bind_assoc ..).symm

/-- The last step of a run of `k + 1` steps. -/
theorem stateAfter_succ_eq_some {k : Nat} {u : State} :
    stateAfter m s (k + 1) = some u ↔ ∃ t, stateAfter m s k = some t ∧ stepWith m t = .next u := by
  simp only [stateAfter_succ, Option.bind_eq_some_iff, nextState?_eq_some]

theorem reaches_of_stateAfter {k : Nat} (h : stateAfter m s k = some t) : Reaches m s t := by
  induction k generalizing t with
  | zero => cases h; exact .here
  | succ k ih =>
    obtain ⟨u, hu, hstep⟩ := stateAfter_succ_eq_some.mp h
    exact .step (ih hu) hstep

-- A self-loop (R109, R150)

/-- R150: a JMP whose register holds its own address is a step to the same state. -/
theorem stepWith_of_self_jump (hm : m.Valid) (hr : s.run = .running) {o : Byte} {a : Nat} (ha : a < 8)
    (hb : BytesAt s.mem s.pc [m.jmp, o]) (ho : SelectsReg o a) (hself : s.regs[a].toNat = s.pc) :
    stepWith m s = .next s := by
  obtain rfl := (selectsReg_iff o a).mp ho
  have hjmp : stepWith m s = exec (.jmp (regOperand o)) s := stepWith_of_bytes hm hr (k := .jmp) hb rfl rfl
  rw [hjmp, exec_of_effect (.jmp ha), hself]

theorem stateAfter_of_fixed (h : stepWith m s = .next s) (k : Nat) : stateAfter m s k = some s := by
  induction k with
  | zero => rfl
  | succ k ih => exact stateAfter_succ_eq_some.mpr ⟨s, ih, h⟩

/-- A run from a state that steps to itself goes through that state alone. -/
theorem Reaches.eq_of_fixed (h : stepWith m s = .next s) (ht : Reaches m s t) : t = s :=
  ht.invariant (P := (· = s)) (fun ht hu => by subst ht; exact (Host.Outcome.next.inj (h.symm.trans hu)).symm) rfl

theorem report_of_running (h : s.run = .running) : s.report = none := by
  simp only [State.report, h]

/-- Settles O52: the step leads to the state it started from, so the run stays there, and a running engine has no report. -/
theorem selfJumpLoopsForever : Obligations.SelfJumpLoopsForever := by
  intro m s o a ha hm hr hb ho hself
  have hfix : stepWith m s = .next s := stepWith_of_self_jump hm hr ha hb ho hself
  refine ⟨stateAfter_of_fixed hfix, fun t ht => ?_⟩
  rw [ht.eq_of_fixed hfix]
  exact report_of_running hr

-- An endless run (R108, R214)

/-- A run keeps its memory (R52). -/
theorem Reaches.mem_eq (h : Reaches m s t) : t.mem = s.mem :=
  h.invariant (P := fun t => t.mem = s.mem) (fun ht hu => (step_mem_eq hu).trans ht) rfl

/-- A run keeps the program counter in 0 to 256 (R29). -/
theorem Reaches.pc_le (h : Reaches m s t) (hs : s.pc ≤ 256) : t.pc ≤ 256 :=
  h.invariant (P := fun t => t.pc ≤ 256) (fun ht hu => step_pc_le hu ht) hs

/-- The part of the engine that changes along an endless run: the registers, FL and the program counter, which is 0 to 256.
Its values are finitely many. -/
def State.variablePart (s : State) : (Fin 8 → Byte) × Byte × Fin 257 :=
  (fun i => s.regs[i], s.fl, Fin.ofNat 257 s.pc)

/-- States with the same run state and memory are the same engine when those parts agree. -/
theorem sameEngine_of_variablePart_eq {t u : State} (hpart : t.variablePart = u.variablePart)
    (hrun : t.run = u.run) (hmem : t.mem = u.mem) (ht : t.pc ≤ 256) (hu : u.pc ≤ 256) : t.SameEngine u := by
  obtain ⟨hregs, hfl, hpc⟩ : _ ∧ _ ∧ _ := by simpa only [State.variablePart, Prod.mk.injEq] using hpart
  refine ⟨Vector.ext fun i hi => congrFun hregs ⟨i, hi⟩, ?_, hfl, hrun, hmem⟩
  have hmod : t.pc % 257 = u.pc % 257 := congrArg Fin.val hpc
  omega

/-- Settles O53: an endless run is running at every moment and keeps its memory, and of its infinitely many moments two have
the same registers, FL and program counter. -/
theorem endlessRunRepeatsState : Obligations.EndlessRunRepeatsState := by
  intro m s hs hrun
  choose state hstate using hrun
  have hreach (k : Nat) : Reaches m s (state k) := reaches_of_stateAfter (hstate k)
  have hrunning (k : Nat) : (state k).run = .running := by
    obtain ⟨t, ht, hstep⟩ := stateAfter_succ_eq_some.mp (hstate (k + 1))
    cases (hstate k).symm.trans ht
    exact (stepWith_cases hstep).1
  have hsame {j k : Nat} (h : (state j).variablePart = (state k).variablePart) : (state j).SameEngine (state k) :=
    sameEngine_of_variablePart_eq h ((hrunning j).trans (hrunning k).symm)
      ((hreach j).mem_eq.trans (hreach k).mem_eq.symm) ((hreach j).pc_le hs) ((hreach k).pc_le hs)
  obtain ⟨j, k, hlt, hpart⟩ : ∃ j k, j < k ∧ (state j).variablePart = (state k).variablePart :=
    Set.finite_univ.exists_lt_map_eq_of_forall_mem fun _ => Set.mem_univ _
  exact ⟨j, k, state j, state k, hlt, hstate j, hstate k, hsame hpart⟩

end Run
end Sys2Proof.Machine
end

section
/-! PROOFS. Load immediate and output (41_load_immediate_and_output.md): the effects of LDI and PRN at dispatch, the two in
a row, and a step on their bytes; and, for any instruction, a step on its bytes and on bytes that memory cuts short. -/

namespace Sys2Proof.Machine

section Step

variable {m : OpcodeParams} {s t : State}

/-- With a legal opcode map, a step on a byte pattern of an instruction is that instruction's effect. -/
theorem stepWith_of_isEncodingOf (hm : m.Valid) (hr : s.run = .running) {bytes : List Byte} {i : Instr}
    (hb : BytesAt s.mem s.pc bytes) (henc : IsEncodingOf m bytes i) (he : EffectOf s i t) : stepWith m s = .next t := by
  have hd : decode m bytes = .ok (i, []) := by simpa using decode_of_isEncodingOf hm henc []
  rw [stepWith_of_decode hr hb hd, exec_of_effect he]

/-- R103: a step on an opcode whose operand bytes do not all lie below 256 is an AddressFault. -/
theorem stepWith_of_short_operands (hm : m.Valid) (hr : s.run = .running) (k : Mnemonic)
    (hop : s.mem.read s.pc = .ok (m.byteOf k)) (hshort : 255 < s.pc + k.arity) :
    stepWith m s = .next { s with run := .faulted .addressFault s.pc } :=
  stepWith_of_short m hr (.inr ⟨_, hop, (hm.count k).symm ▸ hshort⟩)

end Step

/-- Settles O30: the three bytes are a pattern of LDI, and from 254 on its two operand bytes do not both lie below 256. -/
theorem stepOfLdi : Obligations.StepOfLdi := by
  intro m s hm hr hop
  refine ⟨fun o imm a ha ho himm hsel => ?_, fun hpc => ?_⟩
  · have hb : BytesAt s.mem s.pc [0x82, o, imm] := ⟨hop, ho, himm, trivial⟩
    have henc : IsEncodingOf m [0x82, o, imm] (.ldi a imm) := ⟨o, rfl, hsel⟩
    exact stepWith_of_isEncodingOf hm hr hb henc (.ldi ha)
  · exact stepWith_of_short_operands hm hr .ldi hop (Nat.add_le_add_right hpc 2)

/-- Settles O31: the two bytes are a pattern of PRN, and at 255 its operand byte does not lie below 256. -/
theorem stepOfPrn : Obligations.StepOfPrn := by
  intro m s hm hr hop
  refine ⟨fun o a ha ho hsel => ?_, fun hpc => ?_⟩
  · have hb : BytesAt s.mem s.pc [0x47, o] := ⟨hop, ho, trivial⟩
    have henc : IsEncodingOf m [0x47, o] (.prn a) := ⟨o, rfl, hsel⟩
    exact stepWith_of_isEncodingOf hm hr hb henc (.prn ha)
  · exact hpc ▸ stepWith_of_short_operands hm hr .prn hop (Nat.add_le_add_right hpc.ge 1)

/-- Settles O14: it is the effect of LDI on a register that exists. -/
theorem ldiWritesImmediate : Obligations.LdiWritesImmediate :=
  fun _ _ _ ha => exec_of_effect (.ldi ha)

/-- Settles O15: it is the effect of PRN on a register that exists. -/
theorem prnEmitsRegister : Obligations.PrnEmitsRegister :=
  fun _ _ ha => exec_of_effect (.prn ha)

/-- Settles O23: PRN reads the register that LDI wrote, and the lengths are 3 and 2. -/
theorem ldiThenPrnEmitsImmediate : Obligations.LdiThenPrnEmitsImmediate := by
  intro s a imm ha
  refine ⟨_, _, ldiWritesImmediate s a imm ha, prnEmitsRegister _ a ha, ?_, rfl⟩
  simp only [Vector.getElem_set_self]

end Sys2Proof.Machine
end

section
/-! PROOFS. The ALU and ADD (42_alu.md): the sum of two bytes and its laws, the effect of ADD at dispatch, and a step on its
bytes. -/

namespace Sys2Proof.Machine

-- The ALU (R130 to R132)

theorem aluApply_add (va vb : Byte) : aluApply .add va vb = .ok (va + vb) := rfl

theorem aluApply_other (name : String) (va vb : Byte) :
    aluApply (.other name) va vb = .error .unsupportedOperation := rfl

/-- R132: `256 - a` is the inverse of `a`, the negation of the byte. -/
theorem add_ofNat_256_sub (va : Byte) : va + BitVec.ofNat 8 (256 - va.toNat) = 0 :=
  BitVec.add_right_neg va

/-- R132: a byte added to itself is the byte shifted left by one, bit 7 lost. -/
theorem add_self_eq_shiftLeft (va : Byte) : va + va = va <<< 1 := by
  apply BitVec.eq_of_toNat_eq
  rw [BitVec.toNat_add, BitVec.toNat_shiftLeft, Nat.shiftLeft_eq]
  omega

/-- The sum modulo 256 of two bytes as numbers, made a byte again, is the sum of the bytes. -/
theorem ofNat_sum_mod_256 (va vb : Byte) : BitVec.ofNat 8 ((va.toNat + vb.toNat) % 256) = va + vb := by
  apply BitVec.eq_of_toNat_eq
  rw [BitVec.toNat_ofNat, BitVec.toNat_add]
  exact Nat.mod_mod _ _

/-- Settles O10: the result of ADD is the sum of the bytes, and among the effects CMP's alone writes FL. -/
theorem aluAddsModulo256 : Obligations.AluAddsModulo256 := by
  refine ⟨fun va vb => ⟨va + vb, aluApply_add va vb, BitVec.toNat_add va vb⟩, fun a b s t h => ?_⟩
  exact frameFlags.1 (.add a b) s t h (fun _ _ => Instr.noConfusion)

/-- Settles O11: the ALU's only operation is the sum of two bytes, and the sum has the laws of R132. -/
theorem aluLaws : Obligations.AluLaws := by
  simp only [Obligations.AluLaws, aluApply_add, Except.ok.injEq]
  exact ⟨aluApply_other, BitVec.add_comm, BitVec.add_zero, fun va _ => add_ofNat_256_sub va, add_self_eq_shiftLeft⟩

-- ADD at dispatch and at a step (R133)

/-- R133: the effect of ADD on registers that exist, its sum written modulo 256. -/
theorem EffectOf.add_mod_256 (s : State) {a b : Nat} (ha : a < 8) (hb : b < 8) :
    EffectOf s (.add a b) { s with
      regs := s.regs.set a (BitVec.ofNat 8 ((s.regs[a].toNat + s.regs[b].toNat) % 256)) ha, pc := s.pc + 3 } := by
  rw [ofNat_sum_mod_256]
  exact .add ha hb

/-- Settles O32: the three bytes are a pattern of ADD, and from 254 on its two operand bytes do not both lie below 256. -/
theorem stepOfAdd : Obligations.StepOfAdd := by
  intro m s hm hr hop
  refine ⟨fun o p a b ha hb ho hp hselA hselB => ?_, fun hpc => ?_⟩
  · have hbytes : BytesAt s.mem s.pc [m.add, o, p] := ⟨hop, ho, hp, trivial⟩
    have henc : IsEncodingOf m [m.add, o, p] (.add a b) := ⟨o, p, rfl, hselA, hselB⟩
    exact stepWith_of_isEncodingOf hm hr hbytes henc (.add_mod_256 s ha hb)
  · exact stepWith_of_short_operands hm hr .add hop (Nat.add_le_add_right hpc 2)

/-- Settles O16: it is the effect of ADD on registers that exist. -/
theorem addWritesSum : Obligations.AddWritesSum :=
  fun s _ _ ha hb => exec_of_effect (.add_mod_256 s ha hb)

end Sys2Proof.Machine
end

section
/-! PROOFS. Compare and flags (43_compare_and_flags.md): the comparator's three cases, the effect of CMP at dispatch and at a
step, and the branch that follows it. -/

namespace Sys2Proof.Machine

-- The comparator (R140 to R142)

/-- R140, R141: the comparator's ordered decision, with its second question written as `<`. -/
theorem compareBytes_eq_ite (va vb : Byte) :
    compareBytes va vb = if va = vb then 0x01 else if vb.toNat < va.toNat then 0x02 else 0x04 := rfl

theorem compareBytes_self (va : Byte) : compareBytes va va = 0x01 := if_pos rfl

theorem compareBytes_of_gt {va vb : Byte} (h : vb.toNat < va.toNat) : compareBytes va vb = 0x02 := by
  have hne : va ≠ vb := by
    rintro rfl
    exact Nat.lt_irrefl _ h
  rw [compareBytes_eq_ite, if_neg hne, if_pos h]

theorem compareBytes_of_lt {va vb : Byte} (h : va.toNat < vb.toNat) : compareBytes va vb = 0x04 := by
  have hne : va ≠ vb := by
    rintro rfl
    exact Nat.lt_irrefl _ h
  rw [compareBytes_eq_ite, if_neg hne, if_neg (Nat.lt_asymm h)]

/-- R140 to R142: two bytes are in exactly one of the three orders, and the order fixes the comparator's result. -/
theorem compareBytes_trichotomy (va vb : Byte) :
    (va.toNat = vb.toNat ∧ compareBytes va vb = 0x01) ∨ (vb.toNat < va.toNat ∧ compareBytes va vb = 0x02) ∨
      (va.toNat < vb.toNat ∧ compareBytes va vb = 0x04) := by
  rcases Nat.lt_trichotomy va.toNat vb.toNat with h | h | h
  · exact .inr (.inr ⟨h, compareBytes_of_lt h⟩)
  · obtain rfl := BitVec.eq_of_toNat_eq h
    exact .inl ⟨rfl, compareBytes_self va⟩
  · exact .inr (.inl ⟨h, compareBytes_of_gt h⟩)

theorem compareBytes_eq_equal_iff (va vb : Byte) : compareBytes va vb = 0x01 ↔ va = vb := by
  rw [← BitVec.toNat_inj (x := va)]
  rcases compareBytes_trichotomy va vb with ⟨h, hc⟩ | ⟨h, hc⟩ | ⟨h, hc⟩ <;> rw [hc]
  · exact iff_of_true rfl h
  · exact iff_of_false (by decide) h.ne'
  · exact iff_of_false (by decide) h.ne

theorem compareBytes_eq_greater_iff (va vb : Byte) : compareBytes va vb = 0x02 ↔ vb.toNat < va.toNat := by
  rcases compareBytes_trichotomy va vb with ⟨h, hc⟩ | ⟨h, hc⟩ | ⟨h, hc⟩ <;> rw [hc]
  · exact iff_of_false (by decide) h.not_gt
  · exact iff_of_true rfl h
  · exact iff_of_false (by decide) h.not_gt

theorem compareBytes_eq_less_iff (va vb : Byte) : compareBytes va vb = 0x04 ↔ va.toNat < vb.toNat := by
  rcases compareBytes_trichotomy va vb with ⟨h, hc⟩ | ⟨h, hc⟩ | ⟨h, hc⟩ <;> rw [hc]
  · exact iff_of_false (by decide) h.not_lt
  · exact iff_of_false (by decide) h.not_gt
  · exact iff_of_true rfl h

/-- R32, R140: of the three results only that of equal bytes has bit 0, the bit that JEQ and JNE read. -/
theorem compareBytes_getLsbD_zero_iff (va vb : Byte) : (compareBytes va vb).getLsbD 0 ↔ va = vb := by
  rw [← compareBytes_eq_equal_iff]
  rcases compareBytes_cases va vb with h | h | h <;> rw [h] <;> decide

/-- Settles O8: the three cases of the ordered decision, two pairs of bytes among the greater ones. -/
theorem comparatorDecision : Obligations.ComparatorDecision := by
  intro va vb
  refine ⟨(compareBytes_eq_equal_iff va vb).mpr, fun _ hgt => compareBytes_of_gt hgt, fun hne hngt => ?_,
    compareBytes_of_gt (by decide), compareBytes_of_gt (by decide)⟩
  have hne : va.toNat ≠ vb.toNat := mt BitVec.eq_of_toNat_eq hne
  exact compareBytes_of_lt (by omega)

/-- Settles O9: "greater" of two bytes and "less" of the swapped ones are the same order of the two. -/
theorem comparatorInverse : Obligations.ComparatorInverse := fun va vb =>
  ⟨compareBytes_cases va vb, compareBytes_eq_equal_iff va vb,
    (compareBytes_eq_greater_iff va vb).trans (compareBytes_eq_less_iff vb va).symm, compareBytes_self va⟩

-- CMP at dispatch and at a step (R144)

/-- R144: the effect of CMP on registers that exist, its flags written as the ordered decision. -/
theorem EffectOf.cmp_ite (s : State) {a b : Nat} (ha : a < 8) (hb : b < 8) :
    EffectOf s (.cmp a b) { s with
      fl := if s.regs[a] = s.regs[b] then 0x01 else if s.regs[b].toNat < s.regs[a].toNat then 0x02 else 0x04,
      pc := s.pc + 3 } := by
  rw [← compareBytes_eq_ite]
  exact .cmp ha hb

/-- Settles O33: the three bytes are a pattern of CMP, and from 254 on its two operand bytes do not both lie below 256. -/
theorem stepOfCmp : Obligations.StepOfCmp := by
  intro m s hm hr hop
  refine ⟨fun o p a b ha hb ho hp hselA hselB => ?_, fun hpc => ?_⟩
  · have hbytes : BytesAt s.mem s.pc [m.cmp, o, p] := ⟨hop, ho, hp, trivial⟩
    have henc : IsEncodingOf m [m.cmp, o, p] (.cmp a b) := ⟨o, p, rfl, hselA, hselB⟩
    exact stepWith_of_isEncodingOf hm hr hbytes henc (.cmp_ite s ha hb)
  · exact stepWith_of_short_operands hm hr .cmp hop (Nat.add_le_add_right hpc 2)

/-- Settles O17: it is the effect of CMP on registers that exist. -/
theorem cmpSetsFlags : Obligations.CmpSetsFlags :=
  fun s _ _ ha hb => exec_of_effect (.cmp_ite s ha hb)

-- CMP and the branch after it (R151, R152)

/-- R151, R152: from one state both branches complete, and bit 0 of FL sends them opposite ways. -/
theorem exec_jeq_jne_pc (t : State) {c : Nat} (hc : c < 8) :
    ∃ u v, exec (.jeq c) t = .next u ∧ exec (.jne c) t = .next v ∧
      u.pc = (if t.fl.getLsbD 0 then t.regs[c].toNat else t.pc + 2) ∧
      v.pc = (if t.fl.getLsbD 0 then t.pc + 2 else t.regs[c].toNat) := by
  obtain ⟨u, hu⟩ := exec_isNext (.jeq c) t
  obtain ⟨v, hv⟩ := exec_isNext (.jne c) t
  exact ⟨u, v, hu, hv, (exec_cases hu).pc_of_jeq hc, (exec_cases hv).pc_of_jne hc⟩

/-- Settles O24: bit 0 of the FL that CMP leaves says whether the two registers are equal, and the lengths are 3 and 2. -/
theorem cmpThenBranchDecides : Obligations.CmpThenBranchDecides := by
  intro s a b c ha hb hc
  have hbit := compareBytes_getLsbD_zero_iff s.regs[a] s.regs[b]
  obtain ⟨u, v, hu, hv, hupc, hvpc⟩ :=
    exec_jeq_jne_pc { s with fl := compareBytes s.regs[a] s.regs[b], pc := s.pc + 3 } hc
  exact ⟨_, u, v, exec_of_effect (.cmp ha hb), hu, hv, hupc.trans (if_congr hbit rfl rfl),
    hvpc.trans (if_congr hbit rfl rfl)⟩

end Sys2Proof.Machine
end

section
/-! PROOFS. Control flow (44_control_flow.md): the effects of JMP, JEQ and JNE at dispatch, and a step on their bytes. -/

namespace Sys2Proof.Machine

section Step

variable {m : OpcodeParams} {s : State}

/-- R103: at 255 a step on an opcode with one operand byte is an AddressFault. -/
theorem stepWith_at_255_of_one_operand (hm : m.Valid) (hr : s.run = .running) (k : Mnemonic)
    (hop : s.mem.read s.pc = .ok (m.byteOf k)) (hk : k.arity = 1) (hpc : s.pc = 255) :
    stepWith m s = .next { s with run := .faulted .addressFault 255 } :=
  hpc ▸ stepWith_of_short_operands hm hr k hop (by omega)

end Step

-- JMP at a step and at dispatch (R150)

/-- Settles O34: the two bytes are a pattern of JMP, and at 255 its operand byte does not lie below 256. -/
theorem stepOfJmp : Obligations.StepOfJmp := by
  intro m s hm hr hop
  refine ⟨fun o a ha ho hsel => ?_, stepWith_at_255_of_one_operand hm hr .jmp hop rfl⟩
  have hb : BytesAt s.mem s.pc [m.jmp, o] := ⟨hop, ho, trivial⟩
  have henc : IsEncodingOf m [m.jmp, o] (.jmp a) := ⟨o, rfl, hsel⟩
  exact stepWith_of_isEncodingOf hm hr hb henc (.jmp ha)

/-- Settles O18: it is the effect of JMP on a register that exists. -/
theorem jmpSetsPc : Obligations.JmpSetsPc :=
  fun _ _ ha => exec_of_effect (.jmp ha)

-- JEQ and JNE at a step and at dispatch (R151, R152, R154)

/-- R151: the effect of JEQ on a register that exists, taken and not in one. -/
theorem EffectOf.jeq_ite (s : State) {a : Nat} (ha : a < 8) :
    EffectOf s (.jeq a) { s with pc := if s.fl.getLsbD 0 then s.regs[a].toNat else s.pc + 2 } := by
  split
  case isTrue he => exact .jeqTaken ha he
  case isFalse he => exact .jeqNot he

/-- R152: the effect of JNE on a register that exists, taken and not in one. -/
theorem EffectOf.jne_ite (s : State) {a : Nat} (ha : a < 8) :
    EffectOf s (.jne a) { s with pc := if s.fl.getLsbD 0 then s.pc + 2 else s.regs[a].toNat } := by
  split
  case isTrue he => exact .jneNot he
  case isFalse he => exact .jneTaken ha he

/-- Settles O35: the two bytes are a pattern of JEQ or of JNE, and at 255 the operand byte does not lie below 256. -/
theorem stepOfJeqJne : Obligations.StepOfJeqJne := by
  intro m s hm hr
  refine ⟨fun o a ha ho hsel => ?_, fun hpc hop => ?_⟩
  · have hb {opcode : Byte} (hop : s.mem.read s.pc = .ok opcode) : BytesAt s.mem s.pc [opcode, o] := ⟨hop, ho, trivial⟩
    have hjeq : IsEncodingOf m [m.jeq, o] (.jeq a) := ⟨o, rfl, hsel⟩
    have hjne : IsEncodingOf m [m.jne, o] (.jne a) := ⟨o, rfl, hsel⟩
    exact ⟨fun hop => stepWith_of_isEncodingOf hm hr (hb hop) hjeq (.jeq_ite s ha),
      fun hop => stepWith_of_isEncodingOf hm hr (hb hop) hjne (.jne_ite s ha)⟩
  · rcases hop with hop | hop
    · exact stepWith_at_255_of_one_operand hm hr .jeq hop rfl hpc
    · exact stepWith_at_255_of_one_operand hm hr .jne hop rfl hpc

/-- Settles O19: each is the effect of its branch on a register that exists, taken or not by bit 0 of FL. -/
theorem jeqJneSelectByEqualBit : Obligations.JeqJneSelectByEqualBit :=
  fun s _ ha => ⟨exec_of_effect (.jeq_ite s ha), exec_of_effect (.jne_ite s ha)⟩

end Sys2Proof.Machine
end

section
/-! PROOFS. HLT and the end of a run (45_halt.md): the effect of HLT at dispatch, a step on its byte, and none after it. -/

namespace Sys2Proof.Machine

/-- Settles O36: HLT's one byte needs no operand byte below 256, and the state after it is Halted, which has no step. -/
theorem stepOfHlt : Obligations.StepOfHlt := by
  intro m s hm hr hop
  have hstep : stepWith m s = .next { s with run := .halted, pc := s.pc + 1 } := stepWith_of_hlt hm hr hop
  exact ⟨hstep, stepWith_of_halted m rfl⟩

/-- Settles O20: it is the effect of HLT, which reads no register and so has no premise. -/
theorem hltHalts : Obligations.HltHalts :=
  fun _ => exec_of_effect .hlt

end Sys2Proof.Machine
end

section
/-! PROOFS. Exceptions (60_exceptions.md): which fault a step raises, from the bytes in memory. -/

namespace Sys2Proof.Machine

section Fault

variable {m : OpcodeParams} {s t : State} {i : Instr} {k : FaultKind} {p : Nat} {opcode : Byte}

/-- R170: the effect of a well-formed instruction on a running engine raises no fault. -/
theorem EffectOf.run_ne_faulted (h : EffectOf s i t) (hw : i.WellFormed) (hr : s.run = .running) :
    t.run ≠ .faulted k p := by
  rw [h.run_eq hw, hr]
  split <;> simp

/-- R80, R173: when all the bytes an opcode asks for lie below 256 and it is none of the eight, the step is an
UnknownInstruction. -/
theorem stepWith_of_unknown (hr : s.run = .running) (hop : s.mem.read s.pc = .ok opcode)
    (hle : s.pc + operandCount opcode ≤ 255) (hnot : ¬ IsOpcode m opcode) :
    stepWith m s = .next (s.raise .unknownInstruction) := by
  obtain ⟨t, h⟩ := stepWith_isNext m hr
  cases (stepWith_cases h).2 with
  | address hshort =>
    rcases hshort with hpc | ⟨_, hop', hgt⟩
    · omega
    · cases hop.symm.trans hop'
      omega
  | unknown => exact h
  | effect hb =>
    cases hop.symm.trans hb.1
    exact absurd ((isOpcode_iff m _).mpr ⟨_, rfl⟩) hnot

end Fault

/-- Settles O39: the two fault cases of a step say where the bytes lie and whether the opcode is one of the eight, and
either answer makes the step the fault that goes with it. -/
theorem faultClassification : Obligations.FaultClassification := by
  intro m s t k p hm h
  obtain ⟨hr, hstep⟩ := stepWith_cases h
  simp only [← operandCount_eq_topBits]
  constructor
  · intro hf
    cases hstep with
    | address hshort =>
      cases hf
      exact ⟨rfl, .inl ⟨rfl, hshort⟩⟩
    | unknown hop hle hl hnone =>
      cases hf
      exact ⟨rfl, .inr ⟨rfl, _, hop, hle, (decode_fetched_unknown_iff hm hl).mp hnone⟩⟩
    | effect _ _ _ _ hw he => exact absurd hf ((exec_cases he).run_ne_faulted hw hr)
  · rintro ⟨rfl, ⟨rfl, hshort⟩ | ⟨rfl, opcode, hop, hle, hnot⟩⟩
    · cases h.symm.trans (stepWith_of_short m hr hshort)
      exact raise_run s .addressFault
    · cases h.symm.trans (stepWith_of_unknown hr hop hle hnot)
      exact raise_run s .unknownInstruction

end Sys2Proof.Machine
end

section
/-! PROOFS. Reset and load (70_reset_and_hazards.md): what construction leaves, the loader's contract, and the invariant in
every run from a loaded image; and the register index that no bytes encode (log entry 14). -/

namespace Sys2Proof.Machine

section Load

variable {s t : State} {image : List Host.Cell}

-- The loader, one write at a time (R205)

theorem load_cons_of_lt (s : State) {c : Host.Cell} (hc : c.1 < 256) (cs : List Host.Cell) :
    s.load (c :: cs) = State.load { s with mem := s.mem.store c.1 c.2 } cs := by
  simp only [State.load, loadByte_eq, if_pos hc]
  rfl

theorem load_cons_of_ge (s : State) {c : Host.Cell} (hc : 256 ≤ c.1) (cs : List Host.Cell) :
    s.load (c :: cs) = .error .addressFault := by
  simp only [State.load, loadByte_eq, if_neg (Nat.not_lt.mpr hc)]
  rfl

/-- A load that succeeds stored its first cell inside memory and then loaded the rest. -/
theorem load_cons_ok {c : Host.Cell} (h : s.load (c :: image) = .ok t) :
    c.1 < 256 ∧ State.load { s with mem := s.mem.store c.1 c.2 } image = .ok t := by
  by_cases hc : c.1 < 256
  · exact ⟨hc, load_cons_of_lt s hc image ▸ h⟩
  · rw [load_cons_of_ge s (by omega)] at h
    cases h

-- When a load succeeds (R205, log entry 17)

theorem load_isOk (himage : ∀ c ∈ image, c.1 ≤ 255) : ∃ t, s.load image = .ok t := by
  induction image generalizing s with
  | nil => exact ⟨s, rfl⟩
  | cons c cs ih =>
    obtain ⟨hc, hcs⟩ := List.forall_mem_cons.mp himage
    rw [load_cons_of_lt s (by omega)]
    exact ih hcs

theorem load_of_address_above (s : State) {d : Host.Cell} (hmem : d ∈ image) (hd : 255 < d.1) :
    s.load image = .error .addressFault := by
  induction hmem generalizing s with
  | head cs => exact load_cons_of_ge s hd cs
  | @tail c cs _ ih =>
    by_cases hc : c.1 < 256
    · rw [load_cons_of_lt s hc]
      exact ih _
    · exact load_cons_of_ge s (by omega) cs

/-- Consecutive bytes from an address: the byte at place `k` is written `k` above it. -/
theorem mem_imageAt {bytes : List Byte} {k : Nat} (hk : k < bytes.length) (base : Nat) :
    (base + k, bytes[k]) ∈ imageAt base bytes := by
  induction bytes generalizing base k with
  | nil => cases hk
  | cons b bs ih =>
    cases k with
    | zero => exact List.mem_cons_self
    | succ k =>
      have htail := ih (Nat.lt_of_succ_lt_succ hk) (base + 1)
      rw [Nat.add_right_comm] at htail
      exact List.mem_cons_of_mem _ htail

-- What memory reads after a load (R205)

/-- An address that the image does not write reads as before. -/
theorem read_load_of_ne (hwf : s.mem.wf) (h : s.load image = .ok t) {a : Nat} (ha : ∀ c ∈ image, c.1 ≠ a) :
    t.mem.read a = s.mem.read a := by
  induction image generalizing s with
  | nil => cases h; rfl
  | cons c cs ih =>
    obtain ⟨hne, hcs⟩ := List.forall_mem_cons.mp ha
    obtain ⟨hc, hload⟩ := load_cons_ok h
    calc t.mem.read a
        = (s.mem.store c.1 c.2).read a := ih (Memory.wf_store hwf hc c.2) hload hcs
      _ = s.mem.read a := by rw [Memory.read_store hwf hc, if_neg hne.symm]

/-- An address reads the last value that the image writes to it. -/
theorem read_load_last {earlier later : List Host.Cell} {c : Host.Cell} (hwf : s.mem.wf)
    (h : s.load (earlier ++ c :: later) = .ok t) (hlast : ∀ d ∈ later, d.1 ≠ c.1) : t.mem.read c.1 = .ok c.2 := by
  induction earlier generalizing s with
  | nil =>
    obtain ⟨hc, hload⟩ := load_cons_ok h
    calc t.mem.read c.1
        = (s.mem.store c.1 c.2).read c.1 := read_load_of_ne (Memory.wf_store hwf hc c.2) hload hlast
      _ = .ok c.2 := by rw [Memory.read_store hwf hc, if_pos rfl]
  | cons d ds ih =>
    obtain ⟨hd, hload⟩ := load_cons_ok h
    exact ih (Memory.wf_store hwf hd d.2) hload

/-- A load keeps the invariant: it changes memory alone and keeps its canonical form. -/
theorem load_keeps_inv (hs : s.Inv) (h : s.load image = .ok t) : t.Inv := by
  obtain ⟨⟨mem', rfl⟩, hwf⟩ := load_ok h
  exact ⟨hs.pc_le, hwf hs.mem_wf, hs.report_ok⟩

end Load

/-- Settles O47: construction meets the invariant, and the load and every step keep it. -/
theorem loadedRunsMeetInvariant : Obligations.LoadedRunsMeetInvariant :=
  fun _ p _ _ _ hload hrun => hrun.invariant stepWith_keeps_inv (load_keeps_inv (construct_inv p) hload)

/-- Settles O56: the reads after a load go write by write, and the 257th of consecutive bytes from 0 has address 256. -/
theorem loaderContract : Obligations.LoaderContract := by
  refine ⟨fun s image hwf himage => ?_, fun s _ ⟨_, hmem, hd⟩ => load_of_address_above s hmem hd,
    fun s bytes hlen => ?_⟩
  · obtain ⟨t, h⟩ := load_isOk (s := s) himage
    obtain ⟨⟨mem', rfl⟩, hkeeps⟩ := load_ok h
    refine ⟨mem', h, hkeeps hwf, ?_, fun a ha => read_load_of_ne hwf h ha⟩
    rintro earlier c later rfl hlast
    exact read_load_last hwf h hlast
  · exact load_of_address_above s (mem_imageAt hlen 0) (by simp)

/-- Settles O54: construction writes each field, and the empty list of cells reads 0x00 at every address of memory. -/
theorem constructionLeaves : Obligations.ConstructionLeaves := by
  intro p
  refine ⟨construct_pc p, construct_run p, construct_out p, fun a ha => ?_, fun i hi => ?_, construct_fl p⟩
  · rw [construct_mem]
    exact Memory.read_nil (Nat.lt_succ_of_le ha)
  · exact getReg_of_lt _ hi

-- A register index outside 0 to 7 (R24, log entry 14)

/-- An instruction other than JEQ and JNE that holds a bad register index is fault entry. -/
theorem exec_of_bad_index (s : State) {i : Instr} {a : Nat} (ha : 8 ≤ a) (hmem : a ∈ i.indices)
    (hjeq : ∀ c, i ≠ .jeq c) (hjne : ∀ c, i ≠ .jne c) : exec i s = .next (s.raise .registerFault) :=
  exec_of_effect (.badIndex hmem ha (fun c hc => absurd hc (hjeq c)) fun c hc => absurd hc (hjne c))

/-- JEQ reads a bad register index, and so faults, when bit 0 of FL is set. -/
theorem exec_jeq_of_bad_index (s : State) {a : Nat} (ha : 8 ≤ a) :
    exec (.jeq a) s = .next (if s.fl.getLsbD 0 then s.raise .registerFault else { s with pc := s.pc + 2 }) := by
  split
  case isTrue he => exact exec_of_effect (.badIndex List.mem_cons_self ha (fun _ _ => he) fun _ => Instr.noConfusion)
  case isFalse he => exact exec_of_effect (.jeqNot he)

/-- JNE reads a bad register index, and so faults, when bit 0 of FL is clear. -/
theorem exec_jne_of_bad_index (s : State) {a : Nat} (ha : 8 ≤ a) :
    exec (.jne a) s = .next (if s.fl.getLsbD 0 then { s with pc := s.pc + 2 } else s.raise .registerFault) := by
  split
  case isTrue he => exact exec_of_effect (.jneNot he)
  case isFalse he => exact exec_of_effect (.badIndex List.mem_cons_self ha (fun _ => Instr.noConfusion) fun _ _ => he)

/-- Settles O21: each form holds the bad index, and JEQ and JNE read theirs when taken. -/
theorem badRegisterIndexFaults : Obligations.BadRegisterIndexFaults := by
  intro s bad ok imm hbad _
  have fault {i : Instr} (hmem : bad ∈ i.indices) (hjeq : ∀ c, i ≠ .jeq c) (hjne : ∀ c, i ≠ .jne c) :
      exec i s = .next { s with run := .faulted .registerFault s.pc } := exec_of_bad_index s hbad hmem hjeq hjne
  refine ⟨?_, ?_, ?_, ?_, ?_, ?_, ?_, ?_, ?_, exec_jeq_of_bad_index s hbad, exec_jne_of_bad_index s hbad⟩ <;>
    exact fault (by simp [Instr.indices]) (by simp) (by simp)

end Sys2Proof.Machine
end
